-- ==== Sys2Proof/Word.lean ====
section
/-!
DEFINITION. The bit vectors of the ports, by the names the spec gives them
(00_scope.md R7, 10_state.md R27, 30_encoding.md R56).
-/

namespace Sys2Proof

/-- The operation code `op[2:0]` (R56). -/
abbrev OpCode := BitVec 3

/-- The index port `index[63:0]` (R27). -/
abbrev IndexPort := BitVec 64

/-- A coordinate port, `x_out[31:0]` or `y_out[31:0]` (R27). -/
abbrev CoordPort := BitVec 32

/-- A whole request, `op` above `index`: word = op * 2^64 + index (R56). -/
abbrev Request := BitVec 67

/-- A 2-bit group of the index, read at one level of the Hilbert walk (R100). -/
abbrev Group := BitVec 2

end Sys2Proof
end

