-- ==== Sys2Proof/Config.lean ====
section
/-!
DEFINITION. What an implementation fixes: the parameters of 00_scope.md R6 and R7. No operation has
an undefined result (60_exceptions.md R125), so there is no free value here.
-/

namespace Sys2Proof

/-- The widths of the index that the hardware has an instance for (R6, 92 D2). -/
def instanceWidths : List Nat := [8, 16, 32, 64]

/-- A request is 67 bits wide, 3 of `op` and 64 of `index` (R7, R56). -/
def requestWidth : Nat := 67

end Sys2Proof
end

