-- ==== Sys2Proof/Syntax.lean ====
section
/-!
DEFINITION. The eight operations of spec/opcode_table.json (30_encoding.md R55, R62), and a request
as an assembler reads it (R65, R66).
-/

namespace Sys2Proof

/-- The curve kind that `op[2]` selects (R57). -/
inductive CurveKind where
  | morton
  | hilbert
deriving DecidableEq, Repr

/-- One constructor for each row of the opcode table. The operand is the whole 64-bit index port:
the bits at and above W are part of the request and are ignored by the operation, not by the
decoder (R56, R59). -/
inductive Instr where
  | mortonDecode8 (index : IndexPort)
  | mortonDecode16 (index : IndexPort)
  | mortonDecode32 (index : IndexPort)
  | mortonDecode64 (index : IndexPort)
  | hilbertDecode8 (index : IndexPort)
  | hilbertDecode16 (index : IndexPort)
  | hilbertDecode32 (index : IndexPort)
  | hilbertDecode64 (index : IndexPort)
deriving DecidableEq, Repr

/-- The index port of a request. -/
def Instr.index : Instr → IndexPort
  | .mortonDecode8 index => index
  | .mortonDecode16 index => index
  | .mortonDecode32 index => index
  | .mortonDecode64 index => index
  | .hilbertDecode8 index => index
  | .hilbertDecode16 index => index
  | .hilbertDecode32 index => index
  | .hilbertDecode64 index => index

/-- The curve kind of an operation (column "operation" of R62). -/
def Instr.kind : Instr → CurveKind
  | .mortonDecode8 _ => .morton
  | .mortonDecode16 _ => .morton
  | .mortonDecode32 _ => .morton
  | .mortonDecode64 _ => .morton
  | .hilbertDecode8 _ => .hilbert
  | .hilbertDecode16 _ => .hilbert
  | .hilbertDecode32 _ => .hilbert
  | .hilbertDecode64 _ => .hilbert

/-- The index width W of an operation (column W of R62). -/
def Instr.width : Instr → Nat
  | .mortonDecode8 _ => 8
  | .mortonDecode16 _ => 16
  | .mortonDecode32 _ => 32
  | .mortonDecode64 _ => 64
  | .hilbertDecode8 _ => 8
  | .hilbertDecode16 _ => 16
  | .hilbertDecode32 _ => 32
  | .hilbertDecode64 _ => 64

/-- A request as it is written for an assembler, its literals as numbers: `<kind>.decode.<W>
<index>` (R65) or `raw <op> <index>` (R66). The numbers are unchecked here. -/
inductive SourceLine where
  | request (kind : CurveKind) (width index : Nat)
  | raw (op index : Nat)
deriving DecidableEq, Repr

end Sys2Proof
end

