-- ==== Sys2Proof/WellFormed.lean ====
section
/-!
DEFINITION. The checks the spec asks for: of a width (00_scope.md R6, 93 U2), of a request as
hardware receives it (30_encoding.md R63: there is nothing to refuse), and of a request as an
assembler reads it (R65, R66).
-/

namespace Sys2Proof

/-- A width of the generic definitions: even and at least 2 (R6); an odd W is refused (93 U2). -/
def validWidth (W : Nat) : Bool := W % 2 == 0 && decide (2 ≤ W)

/-- A width the hardware has an instance for (R6). -/
def instanceWidth (W : Nat) : Bool := instanceWidths.contains W

/-- Every request is well-formed: all eight codes are assigned and every index bit pattern is valid
(R63). The type `Instr` already holds no more than 3 + 64 bits. -/
def Instr.wellFormed : Instr → Bool
  | .mortonDecode8 _ => true
  | .mortonDecode16 _ => true
  | .mortonDecode32 _ => true
  | .mortonDecode64 _ => true
  | .hilbertDecode8 _ => true
  | .hilbertDecode16 _ => true
  | .hilbertDecode32 _ => true
  | .hilbertDecode64 _ => true

/-- No ignored bit is set: the requests that can be written without `raw` (R65, R66). -/
def Instr.canonical (i : Instr) : Bool := decide (i.index.toNat < 2 ^ i.width)

/-- What an assembler accepts: a supported width and a literal below 2^W (R65); for `raw` a 3-bit
code and a 64-bit literal (R66). -/
def SourceLine.wellFormed : SourceLine → Bool
  | .request _ W n => instanceWidth W && decide (n < 2 ^ W)
  | .raw op n => decide (op < 2 ^ 3) && decide (n < 2 ^ 64)

end Sys2Proof
end

