-- ==== Sys2Proof/Decode.lean ====
section
/-!
DEFINITION. Requests as bits: the fields of 30_encoding.md R56, the decoder (total, R63), the encoder
from the opcode map R62, and the opcode table's own rows.
-/

namespace Sys2Proof

/-- `op[2:0]`, the request's bits 66 to 64 (R56). -/
def opField (w : Request) : OpCode := w.extractLsb' 64 3

/-- `index[63:0]`, the request's bits 63 to 0 (R56). -/
def indexField (w : Request) : IndexPort := w.extractLsb' 0 64

/-- `kind` = `op[2]`: 0 Morton, 1 Hilbert (R57). -/
def kindOfOp (op : OpCode) : CurveKind := if op.getLsbD 2 then .hilbert else .morton

/-- `wcode` = `op[1:0]` selects W = 2^(wcode + 3) (R58). -/
def widthOfOp (op : OpCode) : Nat := 2 ^ ((op.extractLsb' 0 2).toNat + 3)

/-- The opcode map R62, row by row, on the three bits of `op`. -/
def decodeOp (op : OpCode) (index : IndexPort) : Instr :=
  match op.getLsbD 2, op.getLsbD 1, op.getLsbD 0 with
  | false, false, false => .mortonDecode8 index
  | false, false, true => .mortonDecode16 index
  | false, true, false => .mortonDecode32 index
  | false, true, true => .mortonDecode64 index
  | true, false, false => .hilbertDecode8 index
  | true, false, true => .hilbertDecode16 index
  | true, true, false => .hilbertDecode32 index
  | true, true, true => .hilbertDecode64 index

/-- The decoder of requests: "total and never refuses a request" (R63). -/
def decode (w : Request) : Instr := decodeOp (opField w) (indexField w)

/-- The operation code of R62. -/
def encodeOp : Instr → OpCode
  | .mortonDecode8 _ => 0b000#3
  | .mortonDecode16 _ => 0b001#3
  | .mortonDecode32 _ => 0b010#3
  | .mortonDecode64 _ => 0b011#3
  | .hilbertDecode8 _ => 0b100#3
  | .hilbertDecode16 _ => 0b101#3
  | .hilbertDecode32 _ => 0b110#3
  | .hilbertDecode64 _ => 0b111#3

/-- The 67-bit request of an operation: `op` above `index` (R56). -/
def encode (i : Instr) : Request := encodeOp i ++ i.index

/-- Why a number is no request. -/
inductive DecodeError where
  /-- The number has a bit at or above 67, where the unit has no port (log 4). Safe. -/
  | widerThanRequest (value : Nat)
deriving DecidableEq, Repr

/-- The decoder on a number: its low `nbits` bits are the request, the bits above them 0. -/
def decodeNat (nbits w : Nat) : Except DecodeError Instr :=
  let v := w % 2 ^ nbits
  if v < 2 ^ requestWidth then .ok (decode (BitVec.ofNat 67 v)) else .error (.widerThanRequest v)

/-- The host's question: the instruction the decoder reads from a word of the opcode table, bit 0
being `index[0]` (opcode_table.json "source_fields"; log 4). -/
def decodeTableWord (nbits w : Nat) : Option Instr :=
  match decodeNat nbits w with
  | .ok i => some i
  | .error _ => none

/-- The mnemonic of an operation (R62, R65). -/
def mnemonicOf : Instr → String
  | .mortonDecode8 _ => "morton.decode.8"
  | .mortonDecode16 _ => "morton.decode.16"
  | .mortonDecode32 _ => "morton.decode.32"
  | .mortonDecode64 _ => "morton.decode.64"
  | .hilbertDecode8 _ => "hilbert.decode.8"
  | .hilbertDecode16 _ => "hilbert.decode.16"
  | .hilbertDecode32 _ => "hilbert.decode.32"
  | .hilbertDecode64 _ => "hilbert.decode.64"

/-- A row of spec/opcode_table.json. -/
structure OpcodeRow where
  mnemonic : String
  pattern : Request
  mask : Request
  kind : CurveKind
  width : Nat
deriving DecidableEq, Repr

/-- spec/opcode_table.json, transcribed: "match", "mask" and "W" of each row. -/
def opcodeTable : List OpcodeRow :=
  [ ⟨"morton.decode.8", 0x0, 0x70000000000000000, .morton, 8⟩,
    ⟨"morton.decode.16", 0x10000000000000000, 0x70000000000000000, .morton, 16⟩,
    ⟨"morton.decode.32", 0x20000000000000000, 0x70000000000000000, .morton, 32⟩,
    ⟨"morton.decode.64", 0x30000000000000000, 0x70000000000000000, .morton, 64⟩,
    ⟨"hilbert.decode.8", 0x40000000000000000, 0x70000000000000000, .hilbert, 8⟩,
    ⟨"hilbert.decode.16", 0x50000000000000000, 0x70000000000000000, .hilbert, 16⟩,
    ⟨"hilbert.decode.32", 0x60000000000000000, 0x70000000000000000, .hilbert, 32⟩,
    ⟨"hilbert.decode.64", 0x70000000000000000, 0x70000000000000000, .hilbert, 64⟩ ]

/-- A request matches a row when its fixed bits are the row's. -/
def rowMatches (row : OpcodeRow) (w : Request) : Bool := w &&& row.mask == row.pattern

end Sys2Proof
end

