-- ==== Sys2Proof/Machine/Operands.lean ====
section
/-!
DEFINITION. Bit-field helpers, the operand of an operation and the placing of its results
(00_scope.md R8, R9; 30_encoding.md R59, R60).
-/

namespace Sys2Proof.Machine

/-- The `n`-bit value whose bit i is `f i`; bit 0 is the least significant (R8). -/
def ofBits : (n : Nat) → (Nat → Bool) → BitVec n
  | 0, _ => 0#0
  | n + 1, f => BitVec.cons (f n) (ofBits n f)

/-- A coordinate pair of H-bit unsigned values, x first (R9). -/
structure Coords (H : Nat) where
  x : BitVec H
  y : BitVec H
deriving DecidableEq, Repr

/-- The cell of the grid that a pair names, as natural numbers. -/
def cellOf {H : Nat} (c : Coords H) : Nat × Nat := (c.x.toNat, c.y.toNat)

/-- The pair with x and y exchanged. -/
def exchange {H : Nat} (c : Coords H) : Coords H := ⟨c.y, c.x⟩

/-- `idx = index[W-1:0]`; the bits at and above W are ignored (R59). -/
def operand (W : Nat) (index : IndexPort) : BitVec W := index.setWidth W

/-- `x_out = zext_32(x)`, `y_out = zext_32(y)` (R60). -/
def placeResult {H : Nat} (c : Coords H) : Coords 32 := ⟨c.x.setWidth 32, c.y.setWidth 32⟩

end Sys2Proof.Machine
end

