-- ==== Sys2Proof/Machine/Bitselect.lean ====
section
/-!
DEFINITION. The Morton decoder: the functional definition (40_morton.md R75), which governs, and the
branch-free mask algorithm (R76 to R78), which computes the same for W a power of two (R79).
-/

namespace Sys2Proof.Machine

/-- `MortonDecode_W` (R75): x from the even-position bits of the index, y from the odd ones. -/
def mortonDecode (W : Nat) (index : BitVec W) : Coords (W / 2) :=
  ⟨ofBits (W / 2) fun i => index.getLsbD (2 * i), ofBits (W / 2) fun i => index.getLsbD (2 * i + 1)⟩

/-- The inverse that R80 names: it interleaves, index[2i] = x[i] and index[2i+1] = y[i]. It is part of
a property of the decoder, not an operation of the hardware (R5). -/
def mortonInterleave (W : Nat) (c : Coords (W / 2)) : BitVec W :=
  ofBits W fun j => if j % 2 = 0 then c.x.getLsbD (j / 2) else c.y.getLsbD (j / 2)

/-- The mask constant M_k: bit j is 1 exactly when bit k of j is 0 (R76). -/
def mortonMask (W k : Nat) : BitVec W := ofBits W fun j => !j.testBit k

/-- The working value v after step k of `Compact_W` (R77, R29): step 0 is a plain AND, step k a
shift-OR-AND of stride 2^(k-1). -/
def compactStages (W : Nat) (v : BitVec W) : Nat → BitVec W
  | 0 => v &&& mortonMask W 0
  | k + 1 =>
    (compactStages W v k ||| compactStages W v k >>> 2 ^ k) &&& mortonMask W (k + 1)

/-- `Compact_W` (R77): K = log2(W) masked steps, then the low half. For W a power of two. -/
def compact (W : Nat) (v : BitVec W) : BitVec (W / 2) :=
  (compactStages W v (Nat.log2 W - 1)).setWidth (W / 2)

/-- The mask algorithm for both coordinates: y first shifts the index right by 1 (R78). -/
def mortonDecodeMasked (W : Nat) (index : BitVec W) : Coords (W / 2) :=
  ⟨compact W index, compact W (index >>> 1)⟩

end Sys2Proof.Machine
end

