-- ==== Sys2Proof/Machine/Orientation.lean ====
section
/-!
DEFINITION. The four orientations of the Hilbert decoder, the convention, the lookup table and its
closed form (10_state.md R30, R31; 41_hilbert.md R96 to R99, R104).
-/

namespace Sys2Proof.Machine

/-- The orientation state: exactly four values (R96). -/
inductive Orientation where
  /-- identity -/
  | ident
  /-- reflect-across-diagonal-A, the main diagonal x = y -/
  | reflA
  /-- rotate-180 -/
  | rot180
  /-- reflect-across-diagonal-B, the anti-diagonal -/
  | reflB
deriving DecidableEq, Repr

/-- The 2-bit tag {c, s}: s exchanges x and y, c complements both (R30). -/
def orientationTag : Orientation → BitVec 2
  | .ident => 0b00#2
  | .reflA => 0b01#2
  | .rot180 => 0b10#2
  | .reflB => 0b11#2

/-- The orientation of a tag (R30). -/
def orientationOfTag (tag : BitVec 2) : Orientation :=
  match tag.getLsbD 1, tag.getLsbD 0 with
  | false, false => .ident
  | false, true => .reflA
  | true, false => .rot180
  | true, true => .reflB

/-- Composition is the exclusive or of the tags (R97). -/
def composeOrientation (o1 o2 : Orientation) : Orientation :=
  orientationOfTag (orientationTag o1 ^^^ orientationTag o2)

/-- Where an orientation takes the cell (u, v) of a square of side `side` (R96). -/
def orientCell (o : Orientation) (side : Nat) (cell : Nat × Nat) : Nat × Nat :=
  match o with
  | .ident => cell
  | .reflA => (cell.2, cell.1)
  | .rot180 => (side - 1 - cell.1, side - 1 - cell.2)
  | .reflB => (side - 1 - cell.2, side - 1 - cell.1)

/-- The action on quadrant bits (qx, qy) (table of R30). -/
def orientQuadrant (o : Orientation) (q : Bool × Bool) : Bool × Bool :=
  match o with
  | .ident => q
  | .reflA => (q.2, q.1)
  | .rot180 => (!q.1, !q.2)
  | .reflB => (!q.2, !q.1)

/-- The convention: the quadrant that a group visits under ID (R98, 92 D9). -/
def quadrantOfGroup (g : Group) : Bool × Bool :=
  match g.getLsbD 1, g.getLsbD 0 with
  | false, false => (false, false)
  | false, true => (false, true)
  | true, false => (true, true)
  | true, true => (true, false)

/-- The convention: the local orientation of the sub-curve in that quadrant (R98, 92 D9). -/
def localOrientation (g : Group) : Orientation :=
  match g.getLsbD 1, g.getLsbD 0 with
  | false, false => .reflA
  | false, true => .ident
  | true, false => .ident
  | true, true => .reflB

/-- An entry of the lookup table: (Δx, Δy, next) (R31, R99). -/
structure LutEntry where
  dx : Bool
  dy : Bool
  next : Orientation
deriving DecidableEq, Repr

/-- The entry that the convention gives: (Δx, Δy) = o(q_ID(g)), next = o ^ t(g) (R99). -/
def conventionEntry (o : Orientation) (g : Group) : LutEntry :=
  let q := orientQuadrant o (quadrantOfGroup g)
  ⟨q.1, q.2, composeOrientation o (localOrientation g)⟩

/-- The 4-bit word `{next[1:0], Δy, Δx}` of an entry (R99). -/
def packEntry (e : LutEntry) : BitVec 4 :=
  orientationTag e.next ++ BitVec.ofBool e.dy ++ BitVec.ofBool e.dx

/-- The entry of a word (R99). -/
def unpackEntry (w : BitVec 4) : LutEntry :=
  ⟨w.getLsbD 0, w.getLsbD 1, orientationOfTag (w.extractLsb' 2 2)⟩

/-- The contents of a table of 16 words. The walk takes the table as an argument (93 U1). -/
abbrev LutWords := Vector (BitVec 4) 16

/-- The address `{o[1:0], g[1:0]}` (R41, R99). -/
def lutAddress (o : Orientation) (g : Group) : BitVec 4 := orientationTag o ++ g

/-- One read of a table: `LUT[o][g]` (R9, R41). -/
def lutRead (lut : LutWords) (o : Orientation) (g : Group) : LutEntry :=
  unpackEntry (lut[(lutAddress o g).toNat]'(lutAddress o g).isLt)

/-- The hardwired table: the 16 words of R99, from address 0 to 15. -/
def hilbertLut : LutWords :=
  #v[0x4, 0x2, 0x3, 0xD, 0x0, 0x5, 0x7, 0xA, 0xF, 0x9, 0x8, 0x6, 0xB, 0xE, 0xC, 0x1]

/-- The closed form of R104, with o = {c, s} and g = {g1, g0}. -/
def closedFormEntry (o : Orientation) (g : Group) : LutEntry :=
  let c := (orientationTag o).getLsbD 1
  let s := (orientationTag o).getLsbD 0
  let g1 := g.getLsbD 1
  let g0 := g.getLsbD 0
  let qx0 := g1
  let qy0 := g1 ^^ g0
  let a := if s then qy0 else qx0
  let b := if s then qx0 else qy0
  ⟨a ^^ c, b ^^ c,
    orientationOfTag (BitVec.ofBool (c ^^ (g1 && g0)) ++ BitVec.ofBool (s ^^ !(g1 ^^ g0)))⟩

end Sys2Proof.Machine
end

