-- ==== Sys2Proof/Machine/Walk.lean ====
section
/-!
DEFINITION. The Hilbert decoder: the walk over H levels through a table (41_hilbert.md R100 to R103),
and the recursive curve it follows (R98).
-/

namespace Sys2Proof.Machine

/-- The transient state inside one Hilbert operation: orientation, accumulators, level
(10_state.md R28). -/
structure HilbertWork (W : Nat) where
  orientation : Orientation
  x : BitVec (W / 2)
  y : BitVec (W / 2)
  level : Nat
deriving DecidableEq, Repr

/-- Every operation starts with o = ID and x = y = 0 (R102). -/
def hilbertStart (W : Nat) : HilbertWork W := ⟨.ident, 0, 0, 0⟩

/-- The group of level l: `index[W-1-2l : W-2-2l]`, level 0 the most significant (R100). -/
def groupAt (W : Nat) (index : BitVec W) (level : Nat) : Group :=
  (index >>> (W - 2 - 2 * level)).setWidth 2

/-- A contribution bit scaled by the cell half-size 2^(H-1-l) of its level (R95, R101). -/
def scaledBit (H level : Nat) (d : Bool) : BitVec H :=
  (BitVec.ofBool d).setWidth H <<< (H - 1 - level)

/-- One level step (R101), with the table given as the function of its entries. -/
def levelStep (W : Nat) (entry : Orientation → Group → LutEntry) (index : BitVec W)
    (w : HilbertWork W) : HilbertWork W :=
  let e := entry w.orientation (groupAt W index w.level)
  { orientation := e.next
    x := w.x ||| scaledBit (W / 2) w.level e.dx
    y := w.y ||| scaledBit (W / 2) w.level e.dy
    level := w.level + 1 }

/-- `n` level steps in order, from a working state. -/
def runLevels (W : Nat) (entry : Orientation → Group → LutEntry) (index : BitVec W) :
    Nat → HilbertWork W → HilbertWork W
  | 0, w => w
  | n + 1, w => runLevels W entry index n (levelStep W entry index w)

/-- `HilbertDecode_W` over any table (R103): H levels, then stop; the last orientation is discarded
(R102). -/
def hilbertDecodeBy (W : Nat) (entry : Orientation → Group → LutEntry) (index : BitVec W) :
    Coords (W / 2) :=
  let w := runLevels W entry index (W / 2) (hilbertStart W)
  ⟨w.x, w.y⟩

/-- `HilbertDecode_W` (R103): the walk through the hardwired table (R99). -/
def hilbertDecode (W : Nat) (index : BitVec W) : Coords (W / 2) :=
  hilbertDecodeBy W (lutRead hilbertLut) index

/-- A quadrant bit as a number. -/
def bitNat (b : Bool) : Nat := if b then 1 else 0

/-- `Curve(o, m, d)`: the cell of index d on the curve of orientation o in a square of side 2^m
(R98). -/
def curve (o : Orientation) : Nat → Nat → Nat × Nat
  | 0, _ => (0, 0)
  | m + 1, d =>
    let g : Group := BitVec.ofNat 2 (d >>> (2 * m))
    let q := orientQuadrant o (quadrantOfGroup g)
    let rest := curve (composeOrientation o (localOrientation g)) m (d % 4 ^ m)
    (2 ^ m * bitNat q.1 + rest.1, 2 ^ m * bitNat q.2 + rest.2)

/-- Manhattan distance of two cells; distance 1 is sharing an edge (R105). -/
def manhattan (a b : Nat × Nat) : Nat := (a.1 - b.1) + (b.1 - a.1) + ((a.2 - b.2) + (b.2 - a.2))

/-- Chebyshev distance of two cells (R105). -/
def chebyshev (a b : Nat × Nat) : Nat := max ((a.1 - b.1) + (b.1 - a.1)) ((a.2 - b.2) + (b.2 - a.2))

end Sys2Proof.Machine
end

