-- ==== Sys2Proof/Machine/Components.lean ====
section
/-!
DEFINITION. The two components with their ports (10_state.md R25, R26) and `sfc_decode_unit` as a
function of its inputs (30_encoding.md R61).
-/

namespace Sys2Proof.Machine

/-- Why a component cannot be built. -/
inductive WidthError where
  /-- W is odd or below 2: W/2 must be whole (00_scope.md R6, 93 U2). Safe. -/
  | notAnIndexWidth (W : Nat)
deriving DecidableEq, Repr

/-- `morton_decoder #(W)` (R25): on the `index` port the whole W bits, on `x` and `y` the result. -/
def mortonDecoder (W : Nat) (index : BitVec W) : Except WidthError (Coords (W / 2)) :=
  if validWidth W then .ok (mortonDecode W index) else .error (.notAnIndexWidth W)

/-- `hilbert_decoder #(W)` (R26). -/
def hilbertDecoder (W : Nat) (index : BitVec W) : Except WidthError (Coords (W / 2)) :=
  if validWidth W then .ok (hilbertDecode W index) else .error (.notAnIndexWidth W)

/-- `SfcDecodeUnit(op, index)` over any table, as the pseudocode of R61 has it. -/
def sfcDecodeUnitBy (entry : Orientation → Group → LutEntry) (op : OpCode) (index : IndexPort) :
    Coords 32 :=
  let W := widthOfOp op
  let idx := operand W index
  match kindOfOp op with
  | .morton => placeResult (mortonDecode W idx)
  | .hilbert => placeResult (hilbertDecodeBy W entry idx)

/-- `SfcDecodeUnit(op, index)` (R61), with the hardwired table. -/
def sfcDecodeUnit (op : OpCode) (index : IndexPort) : Coords 32 :=
  sfcDecodeUnitBy (lutRead hilbertLut) op index

/-- The pair that an operation puts on the outputs: the component of its kind and width on the low bits
of its index, zero-extended (30_encoding.md R59, R60). -/
def resultOf : Instr → Coords 32
  | .mortonDecode8 index => placeResult (mortonDecode 8 (operand 8 index))
  | .mortonDecode16 index => placeResult (mortonDecode 16 (operand 16 index))
  | .mortonDecode32 index => placeResult (mortonDecode 32 (operand 32 index))
  | .mortonDecode64 index => placeResult (mortonDecode 64 (operand 64 index))
  | .hilbertDecode8 index => placeResult (hilbertDecode 8 (operand 8 index))
  | .hilbertDecode16 index => placeResult (hilbertDecode 16 (operand 16 index))
  | .hilbertDecode32 index => placeResult (hilbertDecode 32 (operand 32 index))
  | .hilbertDecode64 index => placeResult (hilbertDecode 64 (operand 64 index))

/-- The results of all eight component instances of the unit, computed at once, in the order of the
operation codes (R27, R61, 92 D26). -/
def allResults (index : IndexPort) : Vector (Coords 32) 8 :=
  #v[placeResult (mortonDecode 8 (operand 8 index)),
     placeResult (mortonDecode 16 (operand 16 index)),
     placeResult (mortonDecode 32 (operand 32 index)),
     placeResult (mortonDecode 64 (operand 64 index)),
     placeResult (hilbertDecode 8 (operand 8 index)),
     placeResult (hilbertDecode 16 (operand 16 index)),
     placeResult (hilbertDecode 32 (operand 32 index)),
     placeResult (hilbertDecode 64 (operand 64 index))]

/-- The multiplexer of R61: all eight results, one selected by `op`. -/
def muxUnit (op : OpCode) (index : IndexPort) : Coords 32 := (allResults index)[op.toNat]'op.isLt

end Sys2Proof.Machine
end

