-- ==== Sys2Proof/Machine/State.lean ====
section
/-!
DEFINITION. The state of `sfc_decode_unit`: the request that stands on its input ports, and the results
of the last request answered (10_state.md R27; 20_memory.md R45). The output ports are NOT here: they
are not stored, and are at every moment the function of the inputs (R33). They are `State.xOut` and
`State.yOut` of Machine/Ops.lean.
-/

namespace Sys2Proof.Machine

/-- `op` and `index` are what the requester drives onto the input ports now (R27). `resultX` and
`resultY` are the MODEL's own fields, not the hardware's: the pair of results of the last request
answered, as its requester has it (R45, "from the request to its pair of results"; log 1). No
operation and no output reads them. -/
structure State where
  op : OpCode
  index : IndexPort
  resultX : CoordPort
  resultY : CoordPort
deriving DecidableEq, Repr

/-- The unit never faults: "No operation raises an exception. Every operation returns a result for
every operand" (60_exceptions.md R125). So there is no fault to name. -/
inductive Fault where
deriving DecidableEq, Repr

/-- The reasons for which a request is not answered. -/
inductive Refusal where
  /-- The model gives the instruction no meaning. Raised by no arm of `exec`: all eight have one. Safe. -/
  | notModelled (mnemonic : String)
  /-- A Hilbert request reached a WRITABLE table before it was loaded. Raised only by
  `writableStep`, never by `step`: in the unit the table is hardwired. The spec asks for this
  refusal (70_reset_and_hazards.md R142, 93 U7). Safe. -/
  | lutNotLoaded
deriving DecidableEq, Repr

/-- The unit before any request. There is no reset input and nothing to reset (R33, R140). The inputs
are taken to be driven to 0 (DESIGN CHOICE, log 2); the outputs are then, as at every moment, the
function of the inputs. No request has been answered: the results are 0 (DESIGN CHOICE, log 2). -/
def State.reset : State := { op := 0#3, index := 0#64, resultX := 0#32, resultY := 0#32 }

end Sys2Proof.Machine
end

