-- ==== Sys2Proof/Machine/Ops.lean ====
section
/-!
DEFINITION. The output ports as functions of the inputs, and the named operations over the ports:
driving the inputs, reading the request, answering it (10_state.md R27, R33; 20_memory.md R45).

There is no memory, no register, no flag and no exception to operate on (20_memory.md R40,
10_state.md R21 and R23, 60_exceptions.md R125 and R130), so there is no such operation here.
-/

namespace Sys2Proof.Machine

/-- The outputs: "not stored; at every moment they are the function of the current inputs" (R33), which
is `SfcDecodeUnit` (R20, 30_encoding.md R61). -/
def outputsOf (s : State) : Coords 32 := sfcDecodeUnit s.op s.index

/-- The port `x_out` (R27, R33). -/
def State.xOut (s : State) : CoordPort := (outputsOf s).x

/-- The port `y_out` (R27, R33). -/
def State.yOut (s : State) : CoordPort := (outputsOf s).y

/-- The results of the last request answered (log 1). -/
def resultsOf (s : State) : Coords 32 := ⟨s.resultX, s.resultY⟩

/-- The request that stands on the input ports. -/
def requestOf (s : State) : Request := s.op ++ s.index

/-- The requester drives the input ports. The outputs follow at once, since they are a function of the
inputs (R33). -/
def driveInputs (s : State) (op : OpCode) (index : IndexPort) : State :=
  { s with op := op, index := index }

/-- The requester drives a request onto the input ports. -/
def presentRequest (s : State) (w : Request) : State := driveInputs s (opField w) (indexField w)

/-- The requester receives a pair of results (R45). -/
def takeResult (s : State) (c : Coords 32) : State := { s with resultX := c.x, resultY := c.y }

/-- The one atomic transition of a request, "from the request to its pair of results" (R45): the
request stands on the input ports, and its zero-extended pair (R60) is received. Always a next
state, never a fault (60_exceptions.md R125). -/
def answer {H : Nat} (i : Instr) (c : Coords H) (s : State) : Host.Outcome State Fault Refusal :=
  .next (takeResult (driveInputs s (encodeOp i) i.index) (placeResult c))

/-- The instruction that the unit runs next: the one its input ports select. -/
def fetchInstr (s : State) : Instr := decode (requestOf s)

/-- The last results received are those that stand on the outputs now. -/
def settled (s : State) : Bool := resultsOf s == outputsOf s

end Sys2Proof.Machine
end

