-- ==== Sys2Proof/Machine/Hilbert.lean ====
section
/-!
DEFINITION. The four Hilbert operations (41_hilbert.md R106 to R109): operand `index[W-1:0]`, result
`HilbertDecode_W` (R103) zero-extended. No flag, no exception.
-/

namespace Sys2Proof.Machine

/-- `hilbert.decode.8` (R106), 4 levels. -/
def execHilbertDecode8 (index : IndexPort) (s : State) : Host.Outcome State Fault Refusal :=
  answer (.hilbertDecode8 index) (hilbertDecode 8 (operand 8 index)) s

/-- `hilbert.decode.16` (R107), 8 levels. -/
def execHilbertDecode16 (index : IndexPort) (s : State) : Host.Outcome State Fault Refusal :=
  answer (.hilbertDecode16 index) (hilbertDecode 16 (operand 16 index)) s

/-- `hilbert.decode.32` (R108), 16 levels. -/
def execHilbertDecode32 (index : IndexPort) (s : State) : Host.Outcome State Fault Refusal :=
  answer (.hilbertDecode32 index) (hilbertDecode 32 (operand 32 index)) s

/-- `hilbert.decode.64` (R109), 32 levels: every bit of the port is read. -/
def execHilbertDecode64 (index : IndexPort) (s : State) : Host.Outcome State Fault Refusal :=
  answer (.hilbertDecode64 index) (hilbertDecode 64 (operand 64 index)) s

end Sys2Proof.Machine
end

