-- ==== Sys2Proof/Machine/Morton.lean ====
section
/-!
DEFINITION. The four Morton operations (40_morton.md R81 to R84): operand `index[W-1:0]`, result
`MortonDecode_W` (R75) zero-extended. No flag, no exception.
-/

namespace Sys2Proof.Machine

/-- `morton.decode.8` (R81). -/
def execMortonDecode8 (index : IndexPort) (s : State) : Host.Outcome State Fault Refusal :=
  answer (.mortonDecode8 index) (mortonDecode 8 (operand 8 index)) s

/-- `morton.decode.16` (R82). -/
def execMortonDecode16 (index : IndexPort) (s : State) : Host.Outcome State Fault Refusal :=
  answer (.mortonDecode16 index) (mortonDecode 16 (operand 16 index)) s

/-- `morton.decode.32` (R83). -/
def execMortonDecode32 (index : IndexPort) (s : State) : Host.Outcome State Fault Refusal :=
  answer (.mortonDecode32 index) (mortonDecode 32 (operand 32 index)) s

/-- `morton.decode.64` (R84): every bit of the port is read. -/
def execMortonDecode64 (index : IndexPort) (s : State) : Host.Outcome State Fault Refusal :=
  answer (.mortonDecode64 index) (mortonDecode 64 (operand 64 index)) s

end Sys2Proof.Machine
end

