-- ==== Sys2Proof/Machine/Dispatch.lean ====
section
/-!
DEFINITION. The meaning of every operation of the opcode table (30_encoding.md R62), one arm each.
-/

namespace Sys2Proof.Machine

def exec (i : Instr) (s : State) : Host.Outcome State Fault Refusal :=
  match i with
  | .mortonDecode8 index => Sys2Proof.Machine.execMortonDecode8 index s
  | .mortonDecode16 index => Sys2Proof.Machine.execMortonDecode16 index s
  | .mortonDecode32 index => Sys2Proof.Machine.execMortonDecode32 index s
  | .mortonDecode64 index => Sys2Proof.Machine.execMortonDecode64 index s
  | .hilbertDecode8 index => Sys2Proof.Machine.execHilbertDecode8 index s
  | .hilbertDecode16 index => Sys2Proof.Machine.execHilbertDecode16 index s
  | .hilbertDecode32 index => Sys2Proof.Machine.execHilbertDecode32 index s
  | .hilbertDecode64 index => Sys2Proof.Machine.execHilbertDecode64 index s

end Sys2Proof.Machine
end

