-- ==== Sys2Proof/Machine/Step.lean ====
section
/-!
DEFINITION. One step: the request on the input ports is answered, indivisibly (20_memory.md R45).
-/

namespace Sys2Proof.Machine

/-- One step of the unit: the operation that `op` selects runs on `index` (30_encoding.md R61). The
inputs and so the outputs stay as they are; a step with the same inputs gives the same answer
(R46). -/
def step (s : State) : Host.Outcome State Fault Refusal := exec (fetchInstr s) s

/-- The request `w` on the input ports, where the next step reads it: what a requester does (log 3).
The outputs are at once the function of that request (10_state.md R33). Bits at and above `nbits` are 0. -/
def State.withFetchWord (s : State) (nbits w : Nat) : State :=
  presentRequest s (BitVec.ofNat 67 (w % 2 ^ nbits))

end Sys2Proof.Machine
end

