-- ==== Sys2Proof/Machine/Requests.lean ====
section
/-!
DEFINITION. Programs as the spec has them: lists of requests that a requester issues, and the trace of
their results, which is the observable outcome (10_state.md R22; 95_test_vectors.md section 3).
-/

namespace Sys2Proof.Machine

/-- Present one request and take the answer. -/
def serve (w : Request) (s : State) : Host.Outcome State Fault Refusal := step (presentRequest s w)

/-- Serve a list of requests in order; stop where one is not answered. -/
def serveAll : List Request → State → Host.Outcome State Fault Refusal
  | [], s => .next s
  | w :: ws, s =>
    match serve w s with
    | .next t => serveAll ws t
    | .fault f => .fault f
    | .refused r => .refused r

/-- What `x_out` and `y_out` show at each answer to a list of requests, in order, up to the first that is
not answered. -/
def resultTrace : List Request → State → List (Coords 32)
  | [], _ => []
  | w :: ws, s =>
    match serve w s with
    | .next t => outputsOf t :: resultTrace ws t
    | .fault _ => []
    | .refused _ => []

end Sys2Proof.Machine
end

