-- ==== Sys2Proof/Machine/Assembler.lean ====
section
/-!
DEFINITION. The assembler syntax of 30_encoding.md R65 and R66: reading a line, checking its literals,
and writing a request and its result. Lexical details that the spec leaves open are in log 10 and
log 11. Text is a list of characters.
-/

namespace Sys2Proof.Machine

/-- Why an assembler refuses a line. -/
inductive AsmError where
  /-- The text has not the form of a request (R65, R66). Safe. -/
  | unreadable
  /-- `<W>` is not one of 8, 16, 32 and 64 (R65). Safe. -/
  | unsupportedWidth (W : Nat)
  /-- The literal is not below 2^W: refused "rather than truncate it" (R65). Safe. -/
  | literalTooLarge (W value : Nat)
  /-- The code of a raw request has more than 3 bits (R66). Safe. -/
  | opTooLarge (value : Nat)
deriving DecidableEq, Repr

/-- The operation of a kind and width, where there is one (R55). -/
def instrOf (kind : CurveKind) (W : Nat) (index : IndexPort) : Option Instr :=
  match kind with
  | .morton =>
    if W = 8 then some (.mortonDecode8 index)
    else if W = 16 then some (.mortonDecode16 index)
    else if W = 32 then some (.mortonDecode32 index)
    else if W = 64 then some (.mortonDecode64 index)
    else none
  | .hilbert =>
    if W = 8 then some (.hilbertDecode8 index)
    else if W = 16 then some (.hilbertDecode16 index)
    else if W = 32 then some (.hilbertDecode32 index)
    else if W = 64 then some (.hilbertDecode64 index)
    else none

/-- From a line to its operation: the checks of R65 and R66. -/
def assembleLine : SourceLine → Except AsmError Instr
  | .request kind W n =>
    match instrOf kind W (BitVec.ofNat 64 n) with
    | none => .error (.unsupportedWidth W)
    | some i => if n < 2 ^ W then .ok i else .error (.literalTooLarge W n)
  | .raw op n =>
    if op < 2 ^ 3 then
      if n < 2 ^ 64 then .ok (decodeOp (BitVec.ofNat 3 op) (BitVec.ofNat 64 n))
      else .error (.literalTooLarge 64 n)
    else .error (.opTooLarge op)

/-- The value of a digit, decimal or hexadecimal of either case. -/
def digitValue (c : Char) : Option Nat :=
  let n := c.toNat
  if 48 ≤ n ∧ n ≤ 57 then some (n - 48)
  else if 65 ≤ n ∧ n ≤ 70 then some (n - 55)
  else if 97 ≤ n ∧ n ≤ 102 then some (n - 87)
  else none

/-- Digits of a base, most significant first, with single `_` separators between digits.
`afterDigit` says that the character before was a digit. -/
def readDigits (base : Nat) : (acc : Nat) → (afterDigit : Bool) → List Char → Option Nat
  | acc, afterDigit, [] => if afterDigit then some acc else none
  | acc, afterDigit, c :: cs =>
    if c = '_' then
      if afterDigit then readDigits base acc false cs else none
    else
      match digitValue c with
      | some d => if d < base then readDigits base (acc * base + d) true cs else none
      | none => none

/-- An unsigned integer literal, decimal or `0x`-prefixed hexadecimal (R65). -/
def readLiteral : List Char → Option Nat
  | '0' :: 'x' :: cs => readDigits 16 0 false cs
  | cs => readDigits 10 0 false cs

/-- The value of a binary digit. A separator is none. -/
def bitValue (c : Char) : Option Nat :=
  if c = '0' then some 0 else if c = '1' then some 1 else none

/-- A 3-bit binary literal `0b...` (R66): three binary digits, most significant first, and nothing
else (log 10). -/
def readBinary3 : List Char → Option Nat
  | ['0', 'b', c2, c1, c0] => do
    let b2 ← bitValue c2
    let b1 ← bitValue c1
    let b0 ← bitValue c0
    pure (4 * b2 + 2 * b1 + b0)
  | _ => none

/-- The parts of a text between the occurrences of a character. -/
def splitAtChar (sep : Char) : List Char → List (List Char)
  | [] => [[]]
  | c :: cs =>
    if c = sep then [] :: splitAtChar sep cs
    else
      match splitAtChar sep cs with
      | [] => [[c]]
      | part :: parts => (c :: part) :: parts

/-- The word of a curve kind (R65). -/
def kindChars : CurveKind → List Char
  | .morton => ['m', 'o', 'r', 't', 'o', 'n']
  | .hilbert => ['h', 'i', 'l', 'b', 'e', 'r', 't']

/-- The word `decode` (R65). -/
def decodeChars : List Char := ['d', 'e', 'c', 'o', 'd', 'e']

/-- The word `raw` (R66). -/
def rawChars : List Char := ['r', 'a', 'w']

/-- `<kind>` (R65). -/
def readKind (cs : List Char) : Option CurveKind :=
  if cs = kindChars .morton then some .morton
  else if cs = kindChars .hilbert then some .hilbert
  else none

/-- `<W>`, one of 8, 16, 32 and 64 (R65). -/
def readWidth (cs : List Char) : Option Nat :=
  if cs = ['8'] then some 8
  else if cs = ['1', '6'] then some 16
  else if cs = ['3', '2'] then some 32
  else if cs = ['6', '4'] then some 64
  else none

/-- A line of text: `<kind>.decode.<W> <index>` (R65) or `raw <op> <index>` (R66). -/
def readLine (text : List Char) : Option SourceLine :=
  match splitAtChar ' ' text with
  | [mnemonic, literal] =>
    match splitAtChar '.' mnemonic with
    | [kind, word, width] =>
      if word = decodeChars then do
        let k ← readKind kind
        let W ← readWidth width
        let n ← readLiteral literal
        pure (.request k W n)
      else none
    | _ => none
  | [word, op, literal] =>
    if word = rawChars then do
      let o ← readBinary3 op
      let n ← readLiteral literal
      pure (.raw o n)
    else none
  | _ => none

/-- From text to operation. -/
def assembleText (text : List Char) : Except AsmError Instr :=
  match readLine text with
  | some line => assembleLine line
  | none => .error .unreadable

/-- A hexadecimal digit, capital. -/
def hexDigit (n : Nat) : Char := if n < 10 then Char.ofNat (48 + n) else Char.ofNat (55 + n)

/-- The low `k` hexadecimal digits of a number, most significant first. -/
def hexDigits : (k : Nat) → Nat → List Char
  | 0, _ => []
  | k + 1, n => hexDigits k (n / 16) ++ [hexDigit (n % 16)]

/-- A `0x` literal of `k` digits. -/
def hexLiteral (k n : Nat) : List Char := '0' :: 'x' :: hexDigits k n

/-- The digits of `<W>`. -/
def widthChars (W : Nat) : List Char :=
  if W = 8 then ['8'] else if W = 16 then ['1', '6'] else if W = 32 then ['3', '2'] else ['6', '4']

/-- The digit of a bit. -/
def bitChar (b : Bool) : Char := if b then '1' else '0'

/-- A line as text, its index in W/4 hexadecimal digits. -/
def writeLine : SourceLine → List Char
  | .request kind W n =>
    kindChars kind ++ '.' :: (decodeChars ++ '.' :: (widthChars W ++ ' ' :: hexLiteral (W / 4) n))
  | .raw op n =>
    rawChars ++ ' ' :: '0' :: 'b' :: bitChar (op.testBit 2) :: bitChar (op.testBit 1) ::
      bitChar (op.testBit 0) :: ' ' :: hexLiteral 16 n

/-- A result as it is written after its request: `-> (x, y)` (R65), each coordinate in H/4
hexadecimal digits as in the examples of R65 (log 11). -/
def writeResult {H : Nat} (c : Coords H) : List Char :=
  ['-', '>', ' ', '('] ++ hexLiteral (H / 4) c.x.toNat ++ ',' :: ' ' ::
    (hexLiteral (H / 4) c.y.toNat ++ [')'])

end Sys2Proof.Machine
end

