-- ==== Sys2Proof/Machine/Instances.lean ====
section
/-!
DEFINITION. Several instances side by side: "the product of independent copies of the single-instance
function" (60_exceptions.md R133, 20_memory.md R49; log 12).
-/

namespace Sys2Proof.Machine

/-- Instance `k` of `n` serves a request; which instance moves is the requesters' choice. -/
def serveAt {n : Nat} (k : Fin n) (w : Request) (units : Vector State n) :
    Host.Outcome (Vector State n) Fault Refusal :=
  match serve w (units[k.val]'k.isLt) with
  | .next t => .next (units.set k.val t k.isLt)
  | .fault f => .fault f
  | .refused r => .refused r

end Sys2Proof.Machine
end

