-- ==== Sys2Proof/Machine/WritableLut.lean ====
section
/-!
DEFINITION. The realisation with a writable table that 70_reset_and_hazards.md R142 allows beside the
hardwired one (10_state.md R31): the table must be loaded before the first Hilbert request, and a
Hilbert request before that is refused (93 U7; log 7). `step` is the hardwired unit, and never this.
-/

namespace Sys2Proof.Machine

/-- The input ports and the last results, as in the hardwired unit, and the table's contents once they
are loaded. Its output ports are `writableOutputs`, not those of `ports` as a hardwired unit. -/
structure WritableUnit where
  ports : State
  lut : Option LutWords
deriving DecidableEq, Repr

/-- At power-up nothing is loaded. -/
def writablePowerUp : WritableUnit := ⟨State.reset, none⟩

/-- The load that R142 requires: the contents of 41_hilbert.md R99, and nothing else is ever written. -/
def writableLoad (u : WritableUnit) : WritableUnit := { u with lut := some hilbertLut }

/-- The requester drives a request onto the input ports. -/
def writablePresent (u : WritableUnit) (w : Request) : WritableUnit :=
  { u with ports := presentRequest u.ports w }

/-- The outputs of this realisation, as far as they have a defined value: none for a Hilbert request
while nothing is loaded (R142). A Morton request reads no table (40_morton.md R75). -/
def writableOutputs (u : WritableUnit) : Option (Coords 32) :=
  match kindOfOp u.ports.op, u.lut with
  | .hilbert, none => none
  | .hilbert, some lut => some (sfcDecodeUnitBy (lutRead lut) u.ports.op u.ports.index)
  | .morton, _ => some (sfcDecodeUnit u.ports.op u.ports.index)

/-- Answer the request on the ports; refuse it where it has no defined result (R142). -/
def writableStep (u : WritableUnit) : Host.Outcome WritableUnit Fault Refusal :=
  match writableOutputs u with
  | none => .refused .lutNotLoaded
  | some c => .next { u with ports := takeResult u.ports c }

end Sys2Proof.Machine
end

