-- ==== Sys2Proof/Safety.lean ====
section
/-!
DEFINITION. The terms the statements use: a safe run, the unit's invariant, and what the answer to a
Morton or a Hilbert request is, whole, with its frame.
-/

namespace Sys2Proof

open Sys2Proof.Machine

/-- `n` steps from `s` all answer (60_exceptions.md R125). -/
def SafeRun (n : Nat) (s : Machine.State) : Prop := ∃ t, core.run n s = .next t

/-- Every request of the list is answered, from `s`. -/
def SafeRequests (ws : List Request) (s : Machine.State) : Prop :=
  ∃ t, Machine.serveAll ws s = .next t

/-- The results last received are those on the outputs, which are the function of the current inputs
(10_state.md R33), and the outputs are 0 at and above bit H of the selected operation
(30_encoding.md R60). -/
def UnitInv (s : Machine.State) : Prop :=
  settled s = true ∧
  s.xOut.toNat < 2 ^ (widthOfOp s.op / 2) ∧
  s.yOut.toNat < 2 ^ (widthOfOp s.op / 2)

/-- The input ports keep their values (20_memory.md R46: no side effect). -/
def InputsHeld (s t : Machine.State) : Prop := t.op = s.op ∧ t.index = s.index

/-- `t` is a state right after the operation `i`, every field of it said: `i`'s request stands on the
input ports (log 5), and the pair received is the pair on the outputs. R45 of 20_memory.md asks for
the transition "from the request to its pair of results"; the fields that hold the pair are the
model's (log 1). -/
def HasAnswered (i : Instr) (t : Machine.State) : Prop :=
  t.op = encodeOp i ∧ t.index = i.index ∧ t.resultX = t.xOut ∧ t.resultY = t.yOut

/-- What stands on the outputs of `t` is the answer to the Morton request `i` of width W: bit i of x is bit 2i of the index and bit i
of y is bit 2i+1 (40_morton.md R75), for i below H; every bit from H up is 0 (30_encoding.md R60);
the mask algorithm (R77, R78) and the stand-alone component (10_state.md R25) give the same pair. -/
def MortonAnswer (W : Nat) (i : Instr) (t : Machine.State) : Prop :=
  (∀ j, j < W / 2 →
    t.xOut.getLsbD j = i.index.getLsbD (2 * j) ∧
    t.yOut.getLsbD j = i.index.getLsbD (2 * j + 1)) ∧
  (∀ j, W / 2 ≤ j → t.xOut.getLsbD j = false ∧ t.yOut.getLsbD j = false) ∧
  t.xOut = (compact W (operand W i.index)).setWidth 32 ∧
  t.yOut = (compact W (operand W i.index >>> 1)).setWidth 32 ∧
  (∃ c, mortonDecoder W (operand W i.index) = .ok c ∧
    t.xOut = c.x.setWidth 32 ∧ t.yOut = c.y.setWidth 32)

/-- What stands on the outputs of `t` is the answer to the Hilbert request `i` of width W: the pair is that of the walk
(41_hilbert.md R103), which reads the groups index[W-1-2l : W-2-2l] for l = 0 to H-1 (R100) and
scales a contribution by 2^(H-1-l) (R101), and it is the cell of the recursive curve (R98); every bit
from H up is 0 (30_encoding.md R60); the stand-alone component (10_state.md R26) gives the same pair. -/
def HilbertAnswer (W : Nat) (i : Instr) (t : Machine.State) : Prop :=
  t.xOut = (hilbertDecode W (operand W i.index)).x.setWidth 32 ∧
  t.yOut = (hilbertDecode W (operand W i.index)).y.setWidth 32 ∧
  (∀ l, l < W / 2 → groupAt W (operand W i.index) l = i.index.extractLsb' (W - 2 - 2 * l) 2) ∧
  (∀ l, l < W / 2 → (scaledBit (W / 2) l true).toNat = 2 ^ (W / 2 - 1 - l)) ∧
  (t.xOut.toNat, t.yOut.toNat) = curve .ident (W / 2) (i.index.toNat % 2 ^ W) ∧
  (∀ j, W / 2 ≤ j → t.xOut.getLsbD j = false ∧ t.yOut.getLsbD j = false) ∧
  (∃ c, hilbertDecoder W (operand W i.index) = .ok c ∧
    t.xOut = c.x.setWidth 32 ∧ t.yOut = c.y.setWidth 32)

end Sys2Proof
end

