-- ==== Sys2Proof/Certificates/Slice0/Obligations.lean ====
section
/-!
DEFINITION. The statements for the provers. Each docstring names the rule of spec/ that it formalises, or
says that the model chose.
-/

open Sys2Proof
open Sys2Proof.Machine

/-! ### Requests as bits -/

/-- 30_encoding.md R56, R62, R63: an encoded operation is decoded as itself, with every bit of its
index, and so is its number as the opcode table numbers it. -/
def Obligations.DecodeOfEncode : Prop :=
  ∀ i : Instr, i.wellFormed = true →
    decode (encode i) = i ∧
    ∀ nbits, 67 ≤ nbits → decodeTableWord nbits (encode i).toNat = some i

/-- R62, R63: every 67-bit word is the encoding of the one well-formed operation it decodes to. -/
def Obligations.EncodeOfDecode : Prop :=
  ∀ w : Request, (decode w).wellFormed = true ∧ encode (decode w) = w

/-- R62: the table of the eight codes, with mnemonic, kind, W and H. -/
def Obligations.OpcodeMapSelectsOperations : Prop :=
  (∀ index : IndexPort,
    decodeOp 0b000#3 index = .mortonDecode8 index ∧
    decodeOp 0b001#3 index = .mortonDecode16 index ∧
    decodeOp 0b010#3 index = .mortonDecode32 index ∧
    decodeOp 0b011#3 index = .mortonDecode64 index ∧
    decodeOp 0b100#3 index = .hilbertDecode8 index ∧
    decodeOp 0b101#3 index = .hilbertDecode16 index ∧
    decodeOp 0b110#3 index = .hilbertDecode32 index ∧
    decodeOp 0b111#3 index = .hilbertDecode64 index) ∧
  ∀ index : IndexPort,
    [0b000#3, 0b001#3, 0b010#3, 0b011#3, 0b100#3, 0b101#3, 0b110#3, 0b111#3].map
        (fun op => (mnemonicOf (decodeOp op index), (decodeOp op index).kind,
          (decodeOp op index).width, (decodeOp op index).width / 2)) =
      [("morton.decode.8", .morton, 8, 4), ("morton.decode.16", .morton, 16, 8),
       ("morton.decode.32", .morton, 32, 16), ("morton.decode.64", .morton, 64, 32),
       ("hilbert.decode.8", .hilbert, 8, 4), ("hilbert.decode.16", .hilbert, 16, 8),
       ("hilbert.decode.32", .hilbert, 32, 16), ("hilbert.decode.64", .hilbert, 64, 32)]

/-- R57, R58: bit 66 of a request (op[2]) selects the curve, bits 65 and 64 (op[1:0]) the width
W = 2^(wcode + 3), and H = W/2. -/
def Obligations.KindAndWidthCode : Prop :=
  (∀ w : Request,
    (decode w).kind = (if w.getLsbD 66 then .hilbert else .morton) ∧
    (decode w).width = 2 ^ ((w.extractLsb' 64 2).toNat + 3) ∧
    (decode w).index = w.extractLsb' 0 64) ∧
  ∀ op : OpCode, kindOfOp op = (if op.getLsbD 2 then .hilbert else .morton) ∧
    (op.extractLsb' 0 2 = 0b00#2 → widthOfOp op = 8 ∧ widthOfOp op / 2 = 4) ∧
    (op.extractLsb' 0 2 = 0b01#2 → widthOfOp op = 16 ∧ widthOfOp op / 2 = 8) ∧
    (op.extractLsb' 0 2 = 0b10#2 → widthOfOp op = 32 ∧ widthOfOp op / 2 = 16) ∧
    (op.extractLsb' 0 2 = 0b11#2 → widthOfOp op = 64 ∧ widthOfOp op / 2 = 32)

/-- R62, R63 and spec/opcode_table.json: every request matches exactly one row of the table, the one of
the operation it decodes to. -/
def Obligations.EveryRequestMatchesOneRow : Prop :=
  ∀ w : Request, ∃ row ∈ opcodeTable,
    rowMatches row w = true ∧
    row.mnemonic = mnemonicOf (decode w) ∧ row.kind = (decode w).kind ∧
    row.width = (decode w).width ∧
    ∀ other ∈ opcodeTable, rowMatches other w = true → other = row

/-- Words of programs P1 to P3 of 95_test_vectors.md, one for each operation code used there. -/
def Obligations.WordsOfProgramsDecode : Prop :=
  decodeTableWord 72 0x0FFFFFFFFFFFFFFB4 = some (.mortonDecode8 0xFFFFFFFFFFFFFFB4) ∧
  decodeTableWord 72 0x100000000FFFF0000 = some (.mortonDecode16 0x00000000FFFF0000) ∧
  decodeTableWord 72 0x2DEADBEEF89ABCDEF = some (.mortonDecode32 0xDEADBEEF89ABCDEF) ∧
  decodeTableWord 72 0x300000000000000B4 = some (.mortonDecode64 0x00000000000000B4) ∧
  decodeTableWord 72 0x4000000000000003E = some (.hilbertDecode8 0x000000000000003E) ∧
  decodeTableWord 72 0x5123400000000CDEF = some (.hilbertDecode16 0x123400000000CDEF) ∧
  decodeTableWord 72 0x60000000000000B40 = some (.hilbertDecode32 0x0000000000000B40) ∧
  decodeTableWord 72 0x70123456789ABCDEF = some (.hilbertDecode64 0x0123456789ABCDEF)

/-! ### Steps -/

/-- 30_encoding.md R61: a step runs the operation that the request on the input ports decodes to, and
nothing else; the input ports stay as driven. -/
def Obligations.StepRunsTheDecodedInstr : Prop :=
  ∀ (s : Machine.State) (i : Instr), decode (s.op ++ s.index) = i → i.wellFormed = true →
    step s = exec i s ∧ ∀ t, step s = .next t → t.op = s.op ∧ t.index = s.index

/-- Placing a table word on the ports makes the very next step run the decoded operation on it, and the
outputs are at once the function of that request (10_state.md R33). The model's choices, no rule of
the spec: that placing is how a request reaches the machine (log 3), and that the results last
received stay as they are while a new request is placed (log 1). -/
def Obligations.PlacedRequestRunsNext : Prop :=
  ∀ (s : Machine.State) (nbits w : Nat) (i : Instr), decodeTableWord nbits w = some i →
    step (s.withFetchWord nbits w) = exec i (s.withFetchWord nbits w) ∧
    requestOf (s.withFetchWord nbits w) = encode i ∧
    outputsOf (s.withFetchWord nbits w) = resultOf i ∧
    resultsOf (s.withFetchWord nbits w) = resultsOf s

/-! ### The four Morton operations -/

/-- 40_morton.md R81, whole: the answer, its encoding, the mask form with its masks and strides, the
corner cases and the worked example. -/
def Obligations.MortonDecode8Answers : Prop :=
  (∀ (index : IndexPort) (s : Machine.State),
    ∃ t, exec (.mortonDecode8 index) s = .next t ∧ MortonAnswer 8 (.mortonDecode8 index) t) ∧
  (∀ index : IndexPort, encodeOp (.mortonDecode8 index) = 0b000#3) ∧
  (∀ v : BitVec 8,
    let a := v &&& 0x55#8
    let b := (a ||| a >>> 1) &&& 0x33#8
    compact 8 v = ((b ||| b >>> 2) &&& 0x0F#8).setWidth 4) ∧
  (∀ p ∈ [(0x00#8, 0x0#4, 0x0#4), (0xFF#8, 0xF#4, 0xF#4), (0x55#8, 0xF#4, 0x0#4),
      (0xAA#8, 0x0#4, 0xF#4), (0x80#8, 0x0#4, 0x8#4), (0x40#8, 0x8#4, 0x0#4),
      (0xB4#8, 0x6#4, 0xC#4)],
    mortonDecode 8 p.1 = ⟨p.2.1, p.2.2⟩) ∧
  (List.range 3).map (compactStages 8 0xB4#8) = [0x14#8, 0x12#8, 0x06#8] ∧
  (List.range 3).map (compactStages 8 (0xB4#8 >>> 1)) = [0x50#8, 0x30#8, 0x0C#8]

/-- 40_morton.md R82, whole. -/
def Obligations.MortonDecode16Answers : Prop :=
  (∀ (index : IndexPort) (s : Machine.State),
    ∃ t, exec (.mortonDecode16 index) s = .next t ∧ MortonAnswer 16 (.mortonDecode16 index) t) ∧
  (∀ index : IndexPort, encodeOp (.mortonDecode16 index) = 0b001#3) ∧
  (∀ v : BitVec 16,
    let a := v &&& 0x5555#16
    let b := (a ||| a >>> 1) &&& 0x3333#16
    let c := (b ||| b >>> 2) &&& 0x0F0F#16
    compact 16 v = ((c ||| c >>> 4) &&& 0x00FF#16).setWidth 8) ∧
  (∀ p ∈ [(0x0000#16, 0x00#8, 0x00#8), (0xFFFF#16, 0xFF#8, 0xFF#8), (0x5555#16, 0xFF#8, 0x00#8),
      (0xAAAA#16, 0x00#8, 0xFF#8), (0x8000#16, 0x00#8, 0x80#8), (0x4000#16, 0x80#8, 0x00#8),
      (0x3FFF#16, 0x7F#8, 0x7F#8), (0xCDEF#16, 0xBB#8, 0xAF#8)],
    mortonDecode 16 p.1 = ⟨p.2.1, p.2.2⟩) ∧
  (List.range 4).map (compactStages 16 0xCDEF#16) = [0x4545#16, 0x2323#16, 0x0B0B#16, 0x00BB#16] ∧
  (List.range 4).map (compactStages 16 (0xCDEF#16 >>> 1)) =
    [0x4455#16, 0x2233#16, 0x0A0F#16, 0x00AF#16]

/-- 40_morton.md R83, whole. -/
def Obligations.MortonDecode32Answers : Prop :=
  (∀ (index : IndexPort) (s : Machine.State),
    ∃ t, exec (.mortonDecode32 index) s = .next t ∧ MortonAnswer 32 (.mortonDecode32 index) t) ∧
  (∀ index : IndexPort, encodeOp (.mortonDecode32 index) = 0b010#3) ∧
  (∀ v : BitVec 32,
    let a := v &&& 0x55555555#32
    let b := (a ||| a >>> 1) &&& 0x33333333#32
    let c := (b ||| b >>> 2) &&& 0x0F0F0F0F#32
    let d := (c ||| c >>> 4) &&& 0x00FF00FF#32
    compact 32 v = ((d ||| d >>> 8) &&& 0x0000FFFF#32).setWidth 16) ∧
  (∀ p ∈ [(0x00000000#32, 0x0000#16, 0x0000#16), (0xFFFFFFFF#32, 0xFFFF#16, 0xFFFF#16),
      (0x55555555#32, 0xFFFF#16, 0x0000#16), (0xAAAAAAAA#32, 0x0000#16, 0xFFFF#16),
      (0x80000000#32, 0x0000#16, 0x8000#16), (0x40000000#32, 0x8000#16, 0x0000#16),
      (0x89ABCDEF#32, 0x11BB#16, 0xAFAF#16)],
    mortonDecode 32 p.1 = ⟨p.2.1, p.2.2⟩) ∧
  (List.range 5).map (compactStages 32 0x89ABCDEF#32) =
    [0x01014545#32, 0x01012323#32, 0x01010B0B#32, 0x001100BB#32, 0x000011BB#32]

/-- 40_morton.md R84, whole. -/
def Obligations.MortonDecode64Answers : Prop :=
  (∀ (index : IndexPort) (s : Machine.State),
    ∃ t, exec (.mortonDecode64 index) s = .next t ∧ MortonAnswer 64 (.mortonDecode64 index) t) ∧
  (∀ index : IndexPort, encodeOp (.mortonDecode64 index) = 0b011#3) ∧
  (∀ v : BitVec 64,
    let a := v &&& 0x5555555555555555#64
    let b := (a ||| a >>> 1) &&& 0x3333333333333333#64
    let c := (b ||| b >>> 2) &&& 0x0F0F0F0F0F0F0F0F#64
    let d := (c ||| c >>> 4) &&& 0x00FF00FF00FF00FF#64
    let e := (d ||| d >>> 8) &&& 0x0000FFFF0000FFFF#64
    compact 64 v = ((e ||| e >>> 16) &&& 0x00000000FFFFFFFF#64).setWidth 32) ∧
  (∀ p ∈ [(0x0#64, 0x0#32, 0x0#32), (0xFFFFFFFFFFFFFFFF#64, 0xFFFFFFFF#32, 0xFFFFFFFF#32),
      (0x5555555555555555#64, 0xFFFFFFFF#32, 0x00000000#32),
      (0xAAAAAAAAAAAAAAAA#64, 0x00000000#32, 0xFFFFFFFF#32),
      (0x8000000000000000#64, 0x00000000#32, 0x80000000#32),
      (0x0123456789ABCDEF#64, 0x11BB11BB#32, 0x0505AFAF#32)],
    mortonDecode 64 p.1 = ⟨p.2.1, p.2.2⟩)

/-! ### The four Hilbert operations -/

/-- 41_hilbert.md R106, whole: the answer, its encoding, the corner cases and the worked example level
by level. -/
def Obligations.HilbertDecode8Answers : Prop :=
  (∀ (index : IndexPort) (s : Machine.State),
    ∃ t, exec (.hilbertDecode8 index) s = .next t ∧ HilbertAnswer 8 (.hilbertDecode8 index) t) ∧
  (∀ index : IndexPort, encodeOp (.hilbertDecode8 index) = 0b100#3) ∧
  (∀ p ∈ [(0x00#8, 0x0#4, 0x0#4), (0x01#8, 0x1#4, 0x0#4), (0x02#8, 0x1#4, 0x1#4),
      (0x03#8, 0x0#4, 0x1#4), (0x04#8, 0x0#4, 0x2#4), (0x3F#8, 0x0#4, 0x7#4),
      (0x40#8, 0x0#4, 0x8#4), (0x55#8, 0x0#4, 0xF#4), (0x80#8, 0x8#4, 0x8#4),
      (0xAA#8, 0xF#4, 0xF#4), (0xEF#8, 0xB#4, 0x0#4), (0xF0#8, 0xC#4, 0x0#4),
      (0xFE#8, 0xE#4, 0x0#4), (0xFF#8, 0xF#4, 0x0#4), (0xB4#8, 0xD#4, 0xB#4)],
    hilbertDecode 8 p.1 = ⟨p.2.1, p.2.2⟩) ∧
  (List.range 4).map (groupAt 8 0xB4#8) = [0b10#2, 0b11#2, 0b01#2, 0b00#2] ∧
  lutRead hilbertLut .ident 0b10#2 = ⟨true, true, .ident⟩ ∧
  lutRead hilbertLut .ident 0b11#2 = ⟨true, false, .reflB⟩ ∧
  lutRead hilbertLut .reflB 0b01#2 = ⟨false, true, .reflB⟩ ∧
  lutRead hilbertLut .reflB 0b00#2 = ⟨true, true, .rot180⟩

/-- 41_hilbert.md R107, whole. -/
def Obligations.HilbertDecode16Answers : Prop :=
  (∀ (index : IndexPort) (s : Machine.State),
    ∃ t, exec (.hilbertDecode16 index) s = .next t ∧ HilbertAnswer 16 (.hilbertDecode16 index) t) ∧
  (∀ index : IndexPort, encodeOp (.hilbertDecode16 index) = 0b101#3) ∧
  ∀ p ∈ [(0x0000#16, 0x00#8, 0x00#8), (0x0001#16, 0x01#8, 0x00#8), (0x3FFF#16, 0x00#8, 0x7F#8),
      (0x4000#16, 0x00#8, 0x80#8), (0x5555#16, 0x00#8, 0xFF#8), (0x8000#16, 0x80#8, 0x80#8),
      (0xAAAA#16, 0xFF#8, 0xFF#8), (0xFFFE#16, 0xFE#8, 0x00#8), (0xFFFF#16, 0xFF#8, 0x00#8),
      (0xCDEF#16, 0xD0#8, 0x6B#8), (0xCDF0#16, 0xD0#8, 0x6C#8)],
    hilbertDecode 16 p.1 = ⟨p.2.1, p.2.2⟩

/-- 41_hilbert.md R108, whole. -/
def Obligations.HilbertDecode32Answers : Prop :=
  (∀ (index : IndexPort) (s : Machine.State),
    ∃ t, exec (.hilbertDecode32 index) s = .next t ∧ HilbertAnswer 32 (.hilbertDecode32 index) t) ∧
  (∀ index : IndexPort, encodeOp (.hilbertDecode32 index) = 0b110#3) ∧
  ∀ p ∈ [(0x00000000#32, 0x0000#16, 0x0000#16), (0x3FFFFFFF#32, 0x0000#16, 0x7FFF#16),
      (0x40000000#32, 0x0000#16, 0x8000#16), (0x55555555#32, 0x0000#16, 0xFFFF#16),
      (0x80000000#32, 0x8000#16, 0x8000#16), (0xAAAAAAAA#32, 0xFFFF#16, 0xFFFF#16),
      (0xB4000000#32, 0xDFFF#16, 0xBFFF#16), (0xFFFFFFFE#32, 0xFFFE#16, 0x0000#16),
      (0xFFFFFFFF#32, 0xFFFF#16, 0x0000#16), (0x89ABCDEF#32, 0xBE2F#16, 0xAF94#16),
      (0x89ABCDF0#32, 0xBE2F#16, 0xAF93#16)],
    hilbertDecode 32 p.1 = ⟨p.2.1, p.2.2⟩

/-- 41_hilbert.md R109, whole. -/
def Obligations.HilbertDecode64Answers : Prop :=
  (∀ (index : IndexPort) (s : Machine.State),
    ∃ t, exec (.hilbertDecode64 index) s = .next t ∧ HilbertAnswer 64 (.hilbertDecode64 index) t) ∧
  (∀ index : IndexPort, encodeOp (.hilbertDecode64 index) = 0b111#3) ∧
  ∀ p ∈ [(0x0#64, 0x0#32, 0x0#32), (0x3FFFFFFFFFFFFFFF#64, 0x00000000#32, 0x7FFFFFFF#32),
      (0x4000000000000000#64, 0x00000000#32, 0x80000000#32),
      (0x5555555555555555#64, 0x00000000#32, 0xFFFFFFFF#32),
      (0x8000000000000000#64, 0x80000000#32, 0x80000000#32),
      (0xAAAAAAAAAAAAAAAA#64, 0xFFFFFFFF#32, 0xFFFFFFFF#32),
      (0xB400000000000000#64, 0xDFFFFFFF#32, 0xBFFFFFFF#32),
      (0xFFFFFFFFFFFFFFFE#64, 0xFFFFFFFE#32, 0x00000000#32),
      (0xFFFFFFFFFFFFFFFF#64, 0xFFFFFFFF#32, 0x00000000#32),
      (0x0123456789ABCDEF#64, 0x14C1BE2F#32, 0x057AAF94#32),
      (0x0123456789ABCDF0#64, 0x14C1BE2F#32, 0x057AAF93#32)],
    hilbertDecode 64 p.1 = ⟨p.2.1, p.2.2⟩

/-! ### The unit -/

/-- 30_encoding.md R61: the pseudocode of the unit, for every state, and the multiplexer over all eight
results. -/
def Obligations.UnitPseudocode : Prop :=
  ∀ s : Machine.State,
    let W := 2 ^ ((s.op.extractLsb' 0 2).toNat + 3)
    let idx : BitVec W := s.index.setWidth W
    ∃ t, step s = .next t ∧ InputsHeld s t ∧
      outputsOf t =
        (if s.op.getLsbD 2 = false then placeResult (mortonDecode W idx)
          else placeResult (hilbertDecode W idx)) ∧
      outputsOf t = muxUnit s.op s.index

/-- 60_exceptions.md R125: every operation returns a result for every operand; no run of any length and
no list of requests, from any state, ever faults or is refused; there is no fault to name. -/
def Obligations.EveryRequestIsAnswered : Prop :=
  (∀ (i : Instr) (s : Machine.State), ∃ t, exec i s = .next t) ∧
  (∀ (n : Nat) (s : Machine.State), SafeRun n s) ∧
  (Machine.Fault → False) ∧
  ∀ (ws : List Request) (s : Machine.State), SafeRequests ws s

/-- 10_state.md R20, 20_memory.md R46, 70_reset_and_hazards.md R141, for all eight operations: each
completes in every state, and what it leaves, in every field, is a function of its request alone; nothing
an earlier operation left can be seen after it. This is the frame of every operation: the request
stands on the input ports (the model's choice, log 5), and the pair that its meaning computes and the
requester receives (fields of the model, log 1) is the pair on the outputs. -/
def Obligations.OperationsLeaveNoTrace : Prop :=
  ∀ (i : Instr) (s : Machine.State),
    ∃ t, exec i s = .next t ∧ HasAnswered i t ∧ ∀ s' : Machine.State, exec i s' = .next t

/-- 30_encoding.md R59: the operand is the low W bits of the index port as an unsigned integer; two
index ports that agree there are both answered, with the same outputs; at W = 64 the
operand is the whole port, and different indices are answered differently. -/
def Obligations.IgnoredBitsHaveNoEffect : Prop :=
  (∀ (op : OpCode) (a b : IndexPort) (s : Machine.State),
    (∀ j, j < widthOfOp op → a.getLsbD j = b.getLsbD j) →
    ∃ t u, exec (decodeOp op a) s = .next t ∧ exec (decodeOp op b) s = .next u ∧
      outputsOf t = outputsOf u) ∧
  (∀ (W : Nat) (index : IndexPort), (operand W index).toNat = index.toNat % 2 ^ W) ∧
  (∀ index : IndexPort, operand 64 index = index) ∧
  ∀ (kind : Bool) (a b : IndexPort) (s t u : Machine.State),
    let op : OpCode := if kind then 0b111#3 else 0b011#3
    exec (decodeOp op a) s = .next t → exec (decodeOp op b) s = .next u →
      outputsOf t = outputsOf u → a = b

/-- 30_encoding.md R60: the outputs are the coordinates of the selected operation, zero-extended; their
bits from H up are 0. -/
def Obligations.ResultsAreZeroExtended : Prop :=
  ∀ (i : Instr) (s t : Machine.State), exec i s = .next t →
    let c : Coords (i.width / 2) := match i.kind with
      | .morton => mortonDecode i.width (operand i.width i.index)
      | .hilbert => hilbertDecode i.width (operand i.width i.index)
    t.xOut.toNat = c.x.toNat ∧ t.yOut.toNat = c.y.toNat ∧
    ∀ j, i.width / 2 ≤ j → t.xOut.getLsbD j = false ∧ t.yOut.getLsbD j = false

/-- 10_state.md R20, R33; 30_encoding.md R60: the unit's invariant. Every step, from every state (also
one that holds arbitrary results), leaves the results received equal to what stands on the outputs, the
function of the inputs, and that 0 from bit H up; so every step keeps the invariant. The fields that
hold the results are the model's (log 1). -/
def Obligations.EveryStepSettlesTheOutputs : Prop :=
  ∀ s t : Machine.State, step s = .next t → UnitInv t

/-- The invariant holds right after reset, and the outputs are (0, 0) there. That the input ports and the
results stand at 0 is the model's choice (log 2); that the outputs are the function of the inputs is
R33. -/
def Obligations.ResetOutputsAreSettled : Prop :=
  UnitInv Machine.State.reset ∧ core.reset = Machine.State.reset ∧
  Machine.State.reset.xOut = 0#32 ∧ Machine.State.reset.yOut = 0#32

/-- 20_memory.md R46: repeating a request, with the inputs held, gives the same result and the same
state, and reading the outputs changes nothing. -/
def Obligations.RepeatedRequestIsIdempotent : Prop :=
  ∀ (s t : Machine.State) (n : Nat), step s = .next t → core.run n t = .next t

/-- 20_memory.md R48, 70_reset_and_hazards.md R143, R145: in any list of requests, each gets the result
of the unit's function on its own operands, whatever came before and from whatever state. -/
def Obligations.TraceIsTheFunctionOfEachRequest : Prop :=
  ∀ (ws : List Request) (s : Machine.State),
    resultTrace ws s = ws.map fun w => sfcDecodeUnit (opField w) (indexField w)

/-- 60_exceptions.md R133: instances share nothing. Serving at one leaves the others as they are, and
the order of two requests at different instances does not matter. That a row of instances is a vector
is the model's choice (log 12). -/
def Obligations.InstancesAreIndependent : Prop :=
  ∀ (n : Nat) (j k : Fin n) (v w : Request) (units : Vector Machine.State n),
    (∃ t, serve w units[k] = .next t ∧ serveAt k w units = .next (units.set k t)) ∧
    (∀ units', serveAt k w units = .next units' → j ≠ k → units'[j] = units[j]) ∧
    (j ≠ k → ∃ u u' final,
      serveAt j v units = .next u ∧ serveAt k w u = .next final ∧
      serveAt k w units = .next u' ∧ serveAt j v u' = .next final)

/-- The invariant of a row of instances: all of them settled, whichever serves (log 12). -/
def Obligations.AllInstancesStaySettled : Prop :=
  ∀ (n : Nat) (k : Fin n) (w : Request) (units units' : Vector Machine.State n),
    (∀ j : Fin n, UnitInv units[j]) → serveAt k w units = .next units' →
    ∀ j : Fin n, UnitInv units'[j]

/-- 30_encoding.md R67: the unit is the stand-alone component of the same kind and width on
index[W-1:0], zero-extended. -/
def Obligations.UnitEqualsComponent : Prop :=
  ∀ (op : OpCode) (index : IndexPort),
    match kindOfOp op with
    | .morton => ∃ c, mortonDecoder (widthOfOp op) (operand (widthOfOp op) index) = .ok c ∧
        sfcDecodeUnit op index = placeResult c
    | .hilbert => ∃ c, hilbertDecoder (widthOfOp op) (operand (widthOfOp op) index) = .ok c ∧
        sfcDecodeUnit op index = placeResult c

/-- 00_scope.md R6, 93 U2: a component is built for exactly the even widths of at least 2, and then
answers every index. -/
def Obligations.ComponentsNeedEvenWidths : Prop :=
  ∀ (W : Nat) (index : BitVec W),
    (mortonDecoder W index = .ok (mortonDecode W index) ↔ 2 ≤ W ∧ ∃ H, W = 2 * H) ∧
    (hilbertDecoder W index = .ok (hilbertDecode W index) ↔ 2 ≤ W ∧ ∃ H, W = 2 * H) ∧
    ((∀ H, W ≠ 2 * H) → mortonDecoder W index = .error (.notAnIndexWidth W) ∧
      hilbertDecoder W index = .error (.notAnIndexWidth W))

/-! ### The Morton decoder, for every even width -/

/-- 40_morton.md R75: x[i] = index[2i] and y[i] = index[2i + 1]. -/
def Obligations.MortonBitEquations : Prop :=
  ∀ (W : Nat) (index : BitVec W), validWidth W = true → ∀ i, i < W / 2 →
    (mortonDecode W index).x.getLsbD i = index.getLsbD (2 * i) ∧
    (mortonDecode W index).y.getLsbD i = index.getLsbD (2 * i + 1)

/-- 40_morton.md R76: the masks, bit by bit; the last one selects the low half; the table. -/
def Obligations.MaskConstants : Prop :=
  (∀ K k j, k < K → j < 2 ^ K →
    ((mortonMask (2 ^ K) k).getLsbD j = true ↔ j.testBit k = false)) ∧
  (∀ K j, j < 2 ^ (K + 1) →
    ((mortonMask (2 ^ (K + 1)) K).getLsbD j = true ↔ j < 2 ^ (K + 1) / 2)) ∧
  (List.range 3).map (mortonMask 8) = [0x55#8, 0x33#8, 0x0F#8] ∧
  (List.range 4).map (mortonMask 16) = [0x5555#16, 0x3333#16, 0x0F0F#16, 0x00FF#16] ∧
  (List.range 5).map (mortonMask 32) =
    [0x55555555#32, 0x33333333#32, 0x0F0F0F0F#32, 0x00FF00FF#32, 0x0000FFFF#32] ∧
  (List.range 6).map (mortonMask 64) =
    [0x5555555555555555#64, 0x3333333333333333#64, 0x0F0F0F0F0F0F0F0F#64,
     0x00FF00FF00FF00FF#64, 0x0000FFFF0000FFFF#64, 0x00000000FFFFFFFF#64] ∧
  mortonMask 2 0 = 0b01#2 ∧ mortonMask 4 0 = 0x5#4 ∧ mortonMask 4 1 = 0x3#4

/-- The paragraph after 40_morton.md R77: after step k, the 2^k bits from 2^(k+1) m on hold the bits
from the even positions 2^(k+1) m, 2^(k+1) m + 2, ..., and every other bit is 0. -/
def Obligations.CompactStageInvariant : Prop :=
  ∀ (K k : Nat) (v : BitVec (2 ^ K)), k < K → ∀ m r, r < 2 ^ (k + 1) →
    2 ^ (k + 1) * m + r < 2 ^ K →
    (compactStages (2 ^ K) v k).getLsbD (2 ^ (k + 1) * m + r) =
      (decide (r < 2 ^ k) && v.getLsbD (2 ^ (k + 1) * m + 2 * r))

/-- 40_morton.md R79, with R77 and R78: the mask algorithm computes the functional definition, for every
power of two; for another even W, so does zero-extending to a power of two first. -/
def Obligations.MaskAlgorithmEqualsBitSelection : Prop :=
  (∀ (K : Nat) (index : BitVec (2 ^ K)), 1 ≤ K →
    mortonDecodeMasked (2 ^ K) index = mortonDecode (2 ^ K) index) ∧
  ∀ (W K : Nat) (index : BitVec W), validWidth W = true → W ≤ 2 ^ K →
    cellOf (mortonDecodeMasked (2 ^ K) (index.setWidth (2 ^ K))) = cellOf (mortonDecode W index)

/-- 40_morton.md R80: a bijection, whose inverse interleaves. -/
def Obligations.MortonIsBijective : Prop :=
  ∀ W : Nat, validWidth W = true →
    Function.Bijective (mortonDecode W) ∧
    (∀ index : BitVec W, mortonInterleave W (mortonDecode W index) = index) ∧
    (∀ c : Coords (W / 2), mortonDecode W (mortonInterleave W c) = c) ∧
    ∀ (c : Coords (W / 2)) (i : Nat), i < W / 2 →
      (mortonInterleave W c).getLsbD (2 * i) = c.x.getLsbD i ∧
      (mortonInterleave W c).getLsbD (2 * i + 1) = c.y.getLsbD i

/-- 40_morton.md R80: the index 0 and the last index. -/
def Obligations.MortonCorners : Prop :=
  ∀ W : Nat, validWidth W = true →
    mortonDecode W 0#W = ⟨0, 0⟩ ∧
    cellOf (mortonDecode W (BitVec.ofNat W (2 ^ W - 1))) = (2 ^ (W / 2) - 1, 2 ^ (W / 2) - 1)

/-- 40_morton.md R80: consistency across widths. -/
def Obligations.MortonAgreesAcrossWidths : Prop :=
  ∀ (W : Nat) (index : BitVec W), validWidth W = true → validWidth (W - 2) = true →
    index.toNat < 2 ^ (W - 2) →
    cellOf (mortonDecode W index) = cellOf (mortonDecode (W - 2) (index.setWidth (W - 2)))

/-- 40_morton.md R80 (a sanity property): x depends only on the even index bits, y only on the odd ones. -/
def Obligations.MortonIsSeparable : Prop :=
  ∀ (W : Nat) (a b : BitVec W), validWidth W = true →
    ((∀ i, a.getLsbD (2 * i) = b.getLsbD (2 * i)) →
      (mortonDecode W a).x = (mortonDecode W b).x) ∧
    ((∀ i, a.getLsbD (2 * i + 1) = b.getLsbD (2 * i + 1)) →
      (mortonDecode W a).y = (mortonDecode W b).y)

/-! ### The Hilbert decoder, for every even width -/

/-- 41_hilbert.md R97 (with R96): the orientations form a commutative group, each its own inverse;
composition is the exclusive or of the tags, and is "o1 after o2" on the cells of every square. -/
def Obligations.OrientationsFormAGroup : Prop :=
  (∀ o, composeOrientation o o = .ident ∧ composeOrientation .ident o = o) ∧
  (∀ o1 o2, composeOrientation o1 o2 = composeOrientation o2 o1 ∧
    orientationTag (composeOrientation o1 o2) = orientationTag o1 ^^^ orientationTag o2) ∧
  (∀ o1 o2 o3, composeOrientation (composeOrientation o1 o2) o3 =
    composeOrientation o1 (composeOrientation o2 o3)) ∧
  composeOrientation .reflA .reflB = .rot180 ∧
  composeOrientation .reflA .rot180 = .reflB ∧
  composeOrientation .rot180 .reflB = .reflA ∧
  ∀ o1 o2 side u v, u < side → v < side →
    orientCell (composeOrientation o1 o2) side (u, v) =
      orientCell o1 side (orientCell o2 side (u, v))

/-- 41_hilbert.md R96 and 10_state.md R30: the action on quadrant bits is the action on cells of a
square of side 2. -/
def Obligations.QuadrantActionIsSideTwo : Prop :=
  ∀ (o : Orientation) (q : Bool × Bool),
    orientCell o 2 (bitNat q.1, bitNat q.2) =
      (bitNat (orientQuadrant o q).1, bitNat (orientQuadrant o q).2)

/-- 41_hilbert.md R99: each entry of the hardwired table is the one the convention gives, and the
packed words are those of the entries. -/
def Obligations.LutHoldsTheConvention : Prop :=
  (∀ (o : Orientation) (g : Group),
    lutRead hilbertLut o g =
      ⟨(orientQuadrant o (quadrantOfGroup g)).1, (orientQuadrant o (quadrantOfGroup g)).2,
        composeOrientation o (localOrientation g)⟩ ∧
    hilbertLut[(orientationTag o ++ g : BitVec 4).toNat]? = some (packEntry (lutRead hilbertLut o g))) ∧
  hilbertLut.toList =
    [0x4, 0x2, 0x3, 0xD, 0x0, 0x5, 0x7, 0xA, 0xF, 0x9, 0x8, 0x6, 0xB, 0xE, 0xC, 0x1]

/-- 41_hilbert.md R104: the closed form has the table's entries, and the walk over it is the decoder. -/
def Obligations.ClosedFormEqualsTable : Prop :=
  (∀ (o : Orientation) (g : Group), closedFormEntry o g = lutRead hilbertLut o g) ∧
  ∀ (W : Nat) (index : BitVec W), validWidth W = true →
    hilbertDecodeBy W closedFormEntry index = hilbertDecode W index

/-- 41_hilbert.md R101, R102: after n levels the level is n and the bits of the remaining levels are
still 0; a level's contribution sets a bit no other level sets, so OR is addition and no carry can
arise. Over any table. -/
def Obligations.LevelsSetDistinctBits : Prop :=
  ∀ (W : Nat) (entry : Orientation → Group → LutEntry) (index : BitVec W) (n : Nat),
    validWidth W = true → n < W / 2 →
    let w := runLevels W entry index n (hilbertStart W)
    let e := entry w.orientation (groupAt W index n)
    w.level = n ∧
    w.x.toNat % 2 ^ (W / 2 - n) = 0 ∧ w.y.toNat % 2 ^ (W / 2 - n) = 0 ∧
    (levelStep W entry index w).x.toNat = w.x.toNat + bitNat e.dx * 2 ^ (W / 2 - 1 - n) ∧
    (levelStep W entry index w).y.toNat = w.y.toNat + bitNat e.dy * 2 ^ (W / 2 - 1 - n)

/-- 41_hilbert.md R103: the walk equals Curve(ID, H, index) of R98. -/
def Obligations.HilbertWalkFollowsTheCurve : Prop :=
  ∀ (W : Nat) (index : BitVec W), validWidth W = true →
    cellOf (hilbertDecode W index) = curve .ident (W / 2) index.toNat

/-- 41_hilbert.md R98, last sentence: the curve of orientation o is the image under o of the curve of
ID, in a square of side 2^m. -/
def Obligations.CurveIsTheImageOfIdent : Prop :=
  ∀ (o : Orientation) (m d : Nat), d < 4 ^ m →
    curve o m d = orientCell o (2 ^ m) (curve .ident m d)

/-- 41_hilbert.md R98: under ID the curve of side 2^H enters at (0, 0) and leaves at (2^H - 1, 0). -/
def Obligations.CurveEntersAndLeaves : Prop :=
  ∀ m : Nat, curve .ident m 0 = (0, 0) ∧ curve .ident m (4 ^ m - 1) = (2 ^ m - 1, 0)

/-- 41_hilbert.md R105: bijection. -/
def Obligations.HilbertIsBijective : Prop :=
  ∀ W : Nat, validWidth W = true → Function.Bijective (hilbertDecode W)

/-- 41_hilbert.md R105 and 93 U1: whatever the table, if under each orientation the four groups select
four distinct quadrants, the decoder is a bijection. -/
def Obligations.DistinctQuadrantsDecodeBijectively : Prop :=
  ∀ entry : Orientation → Group → LutEntry,
    (∀ o, Function.Injective fun g => ((entry o g).dx, (entry o g).dy)) →
    ∀ W : Nat, validWidth W = true → Function.Bijective (hilbertDecodeBy W entry)

/-- 41_hilbert.md R105: the cells of consecutive indices share an edge. -/
def Obligations.HilbertConsecutiveCellsShareAnEdge : Prop :=
  ∀ W i : Nat, validWidth W = true → i + 1 < 2 ^ W →
    manhattan (cellOf (hilbertDecode W (BitVec.ofNat W i)))
      (cellOf (hilbertDecode W (BitVec.ofNat W (i + 1)))) = 1 ∧
    chebyshev (cellOf (hilbertDecode W (BitVec.ofNat W i)))
      (cellOf (hilbertDecode W (BitVec.ofNat W (i + 1)))) = 1

/-- 41_hilbert.md R105: the index 0 and the terminal corner. -/
def Obligations.HilbertCorners : Prop :=
  ∀ W : Nat, validWidth W = true →
    cellOf (hilbertDecode W 0#W) = (0, 0) ∧
    cellOf (hilbertDecode W (BitVec.ofNat W (2 ^ W - 1))) = (2 ^ (W / 2) - 1, 0)

/-- 41_hilbert.md R105 (corrected, 90_conflicts.md C3): an index below 2^(W-2k) is decoded at width W as
at width W-2k, with x and y exchanged when k is odd. -/
def Obligations.HilbertAcrossWidths : Prop :=
  ∀ (W k : Nat) (index : BitVec W), validWidth W = true → validWidth (W - 2 * k) = true →
    index.toNat < 2 ^ (W - 2 * k) →
    let small := hilbertDecode (W - 2 * k) (index.setWidth (W - 2 * k))
    cellOf (hilbertDecode W index) = if k % 2 = 0 then cellOf small else cellOf (exchange small)

/-- 41_hilbert.md R105 and 40_morton.md R80, at the unit: two operations of one kind give the same
pair for an index that fits the narrower width, on the outputs and as received (log 1). -/
def Obligations.InstanceWidthsAgree : Prop :=
  ∀ (a b : OpCode) (index : IndexPort) (s : Machine.State), kindOfOp a = kindOfOp b →
    index.toNat < 2 ^ widthOfOp a → index.toNat < 2 ^ widthOfOp b →
    ∃ t u, exec (decodeOp a index) s = .next t ∧ exec (decodeOp b index) s = .next u ∧
      outputsOf t = outputsOf u ∧ resultsOf t = resultsOf u

/-- 41_hilbert.md R105, at the unit: Hilbert requests for consecutive indices put cells on the outputs
that share an edge. -/
def Obligations.ConsecutiveHilbertRequestsAreAdjacent : Prop :=
  ∀ (op : OpCode) (index : IndexPort) (s s' : Machine.State), kindOfOp op = .hilbert →
    index.toNat + 1 < 2 ^ widthOfOp op →
    ∃ t t', exec (decodeOp op index) s = .next t ∧ exec (decodeOp op (index + 1)) s' = .next t' ∧
      manhattan (cellOf (outputsOf t)) (cellOf (outputsOf t')) = 1

/-! ### The writable realisation, and the assembler -/

/-- The writable realisation of log 7. That a Hilbert request before the load is refused is
70_reset_and_hazards.md R142 (93 U7). The rest is the model's, DEDUCED and DESIGN CHOICE of log 7: the
variant machine and its load; that a Morton request is answered before the load, as by the unit; that
after the load every request is answered as by the unit; that no answer writes the table. -/
def Obligations.WritableTableNeedsItsLoad : Prop :=
  (∀ u : WritableUnit, u.lut = none → kindOfOp u.ports.op = .hilbert →
    writableStep u = .refused .lutNotLoaded) ∧
  (∀ u : WritableUnit, u.lut = none → kindOfOp u.ports.op = .hilbert →
    writableOutputs u = none) ∧
  (∀ u : WritableUnit, writableOutputs (writableLoad u) = some (outputsOf u.ports)) ∧
  (∀ u : WritableUnit, kindOfOp u.ports.op = .morton →
    ∃ t, step u.ports = .next t ∧ writableStep u = .next { u with ports := t }) ∧
  (∀ u : WritableUnit, ∃ t, step u.ports = .next t ∧
    writableStep (writableLoad u) = .next { writableLoad u with ports := t }) ∧
  ∀ u u' : WritableUnit, writableStep u = .next u' → u'.lut = u.lut

/-- 30_encoding.md R65, R66: the assembler accepts exactly the lines whose width is supported and whose
literals fit, gives the operation written, and refuses a literal of at least 2^W. -/
def Obligations.AssemblerRefusesWideLiterals : Prop :=
  (∀ line : SourceLine, (∃ i, assembleLine line = .ok i) ↔ line.wellFormed = true) ∧
  (∀ (kind : CurveKind) (W n : Nat) (i : Instr), assembleLine (.request kind W n) = .ok i →
    i.kind = kind ∧ i.width = W ∧ i.index.toNat = n ∧ i.canonical = true) ∧
  (∀ (kind : CurveKind) (W n : Nat), instanceWidth W = true → 2 ^ W ≤ n →
    assembleLine (.request kind W n) = .error (.literalTooLarge W n)) ∧
  ∀ (op n : Nat) (i : Instr), assembleLine (.raw op n) = .ok i →
    (encode i).toNat = op * 2 ^ 64 + n

/-- 30_encoding.md R65, R66, in the text form of log 10 and log 11 (the model's choice): a request that
is well-formed, written as text, is read back as itself. -/
def Obligations.WrittenLinesAreReadBack : Prop :=
  ∀ line : SourceLine, line.wellFormed = true → readLine (writeLine line) = some line

/-! ### The outputs -/

/-- 10_state.md R33 (with R20): the outputs are not stored. At every moment, in every state, they are the
function of what stands on the input ports: two states with the same inputs have the same outputs,
whatever else differs; presenting a request makes them that operation's result at once; taking a
step does not change them, and the pair that it receives (log 1) is the pair that already stood
there; right after an operation they are its result. -/
def Obligations.OutputsAreTheFunctionOfTheInputs : Prop :=
  (∀ s s' : Machine.State, s.op = s'.op → s.index = s'.index →
    s.xOut = s'.xOut ∧ s.yOut = s'.yOut) ∧
  (∀ (s : Machine.State) (w : Request),
    (presentRequest s w).xOut = (resultOf (decode w)).x ∧
    (presentRequest s w).yOut = (resultOf (decode w)).y) ∧
  (∀ s : Machine.State, ∃ t, step s = .next t ∧ t.xOut = s.xOut ∧ t.yOut = s.yOut ∧
    t.resultX = s.xOut ∧ t.resultY = s.yOut) ∧
  ∀ (i : Instr) (s t : Machine.State), exec i s = .next t →
    t.xOut = (resultOf i).x ∧ t.yOut = (resultOf i).y
end

