-- ==== Sys2Proof/Laws/Assembler.lean ====
section
/-!
SUPPORT. The literal of a raw request's operation code (30_encoding.md R66): the texts it is read from,
said once.
-/

namespace Sys2Proof.Machine

/-- A binary digit is read from its own character alone. -/
theorem bitValue_eq_some_iff (c : Char) (n : Nat) :
    bitValue c = some n ↔ ∃ b : Bool, c = bitChar b ∧ n = b.toNat := by
  unfold bitValue bitChar
  split_ifs with h0 h1 <;> simp_all [eq_comm]

/-- A code is read from exactly one text: `0b` and its three binary digits (30_encoding.md R66,
log 10). -/
theorem readBinary3_eq_some_iff (cs : List Char) (n : Nat) :
    readBinary3 cs = some n ↔ n < 8 ∧
      cs = ['0', 'b', bitChar (n.testBit 2), bitChar (n.testBit 1), bitChar (n.testBit 0)] := by
  constructor
  · intro h
    unfold readBinary3 at h
    split at h
    · rename_i c2 c1 c0
      simp only [Option.bind_eq_bind, Option.bind_eq_some_iff, bitValue_eq_some_iff] at h
      obtain ⟨_, ⟨b2, rfl, rfl⟩, _, ⟨b1, rfl, rfl⟩, _, ⟨b0, rfl, rfl⟩, h⟩ := h
      obtain rfl : _ = n := Option.some.inj h
      cases b2 <;> cases b1 <;> cases b0 <;> decide
    · exact absurd h (by simp)
  · rintro ⟨h, rfl⟩
    interval_cases n <;> decide

end Sys2Proof.Machine
end

