-- ==== Sys2Proof/Laws/State.lean ====
section
/-!
SUPPORT. The fields of the state after each update, one lemma per field per update.
-/

namespace Sys2Proof.Machine

section Drive

variable (s : State) (op op' : OpCode) (index index' : IndexPort)

@[simp] theorem driveInputs_op : (driveInputs s op index).op = op := rfl
@[simp] theorem driveInputs_index : (driveInputs s op index).index = index := rfl
@[simp] theorem driveInputs_resultX : (driveInputs s op index).resultX = s.resultX := rfl
@[simp] theorem driveInputs_resultY : (driveInputs s op index).resultY = s.resultY := rfl
@[simp] theorem resultsOf_driveInputs : resultsOf (driveInputs s op index) = resultsOf s := rfl

/-- The outputs follow the inputs at once (10_state.md R33). -/
@[simp] theorem outputsOf_driveInputs :
    outputsOf (driveInputs s op index) = sfcDecodeUnit op index := rfl

@[simp] theorem driveInputs_self : driveInputs s s.op s.index = s := rfl
@[simp] theorem driveInputs_driveInputs :
    driveInputs (driveInputs s op index) op' index' = driveInputs s op' index' := rfl

end Drive

section Present

variable (s : State) (w : Request)

@[simp] theorem presentRequest_op : (presentRequest s w).op = opField w := rfl
@[simp] theorem presentRequest_index : (presentRequest s w).index = indexField w := rfl
@[simp] theorem presentRequest_resultX : (presentRequest s w).resultX = s.resultX := rfl
@[simp] theorem presentRequest_resultY : (presentRequest s w).resultY = s.resultY := rfl
@[simp] theorem resultsOf_presentRequest : resultsOf (presentRequest s w) = resultsOf s := rfl

end Present

section Take

variable (s : State) (c d : Coords 32) (op : OpCode) (index : IndexPort)

@[simp] theorem takeResult_op : (takeResult s c).op = s.op := rfl
@[simp] theorem takeResult_index : (takeResult s c).index = s.index := rfl
@[simp] theorem takeResult_resultX : (takeResult s c).resultX = c.x := rfl
@[simp] theorem takeResult_resultY : (takeResult s c).resultY = c.y := rfl
@[simp] theorem resultsOf_takeResult : resultsOf (takeResult s c) = c := rfl

/-- Taking a result changes no output: reading has no side effect (20_memory.md R46). -/
@[simp] theorem outputsOf_takeResult : outputsOf (takeResult s c) = outputsOf s := rfl
@[simp] theorem takeResult_xOut : (takeResult s c).xOut = s.xOut := rfl
@[simp] theorem takeResult_yOut : (takeResult s c).yOut = s.yOut := rfl

@[simp] theorem requestOf_takeResult : requestOf (takeResult s c) = requestOf s := rfl
@[simp] theorem fetchInstr_takeResult : fetchInstr (takeResult s c) = fetchInstr s := rfl
@[simp] theorem driveInputs_takeResult :
    driveInputs (takeResult s c) op index = takeResult (driveInputs s op index) c := rfl

/-- Nothing of an earlier result is left (70_reset_and_hazards.md R141). -/
@[simp] theorem takeResult_takeResult : takeResult (takeResult s c) d = takeResult s d := rfl

end Take

section Place

variable {H : Nat} (c : Coords H)

@[simp] theorem placeResult_x : (placeResult c).x = c.x.setWidth 32 := rfl
@[simp] theorem placeResult_y : (placeResult c).y = c.y.setWidth 32 := rfl
@[simp] theorem exchange_x : (exchange c).x = c.y := rfl
@[simp] theorem exchange_y : (exchange c).y = c.x := rfl
@[simp] theorem cellOf_fst : (cellOf c).1 = c.x.toNat := rfl
@[simp] theorem cellOf_snd : (cellOf c).2 = c.y.toNat := rfl

end Place

section Level

variable (W : Nat) (entry : Orientation → Group → LutEntry) (index : BitVec W) (w : HilbertWork W)

@[simp] theorem levelStep_orientation :
    (levelStep W entry index w).orientation =
      (entry w.orientation (groupAt W index w.level)).next := rfl
@[simp] theorem levelStep_x :
    (levelStep W entry index w).x = w.x |||
      scaledBit (W / 2) w.level (entry w.orientation (groupAt W index w.level)).dx := rfl
@[simp] theorem levelStep_y :
    (levelStep W entry index w).y = w.y |||
      scaledBit (W / 2) w.level (entry w.orientation (groupAt W index w.level)).dy := rfl
@[simp] theorem levelStep_level : (levelStep W entry index w).level = w.level + 1 := rfl

@[simp] theorem hilbertStart_orientation : (hilbertStart W).orientation = .ident := rfl
@[simp] theorem hilbertStart_x : (hilbertStart W).x = 0 := rfl
@[simp] theorem hilbertStart_y : (hilbertStart W).y = 0 := rfl
@[simp] theorem hilbertStart_level : (hilbertStart W).level = 0 := rfl

end Level

end Sys2Proof.Machine
end

