-- ==== Sys2Proof/Laws/Exec.lean ====
section
/-!
SUPPORT. What each shared operation can do, said once: bit access to the builders, the one outcome of
`exec`, `step` and `serve`, and the unfolding of the walk and of request lists.
-/

namespace Sys2Proof.Machine

/-- Bit i of a value built from its bits. -/
@[simp] theorem getLsbD_ofBits (n : Nat) (f : Nat → Bool) (i : Nat) :
    (ofBits n f).getLsbD i = (decide (i < n) && f i) := by
  induction n with
  | zero => simp [ofBits]
  | succ n ih =>
    rw [ofBits, BitVec.getLsbD_cons, ih]
    by_cases h : i = n
    · simp [h]
    · simp only [h, if_false]
      congr 1
      simp only [decide_eq_decide]
      omega

/-- `ofBits` reads its function only below the width. -/
theorem ofBits_congr {n : Nat} {f g : Nat → Bool} (h : ∀ i, i < n → f i = g i) :
    ofBits n f = ofBits n g := by
  apply BitVec.eq_of_getLsbD_eq
  intro i hi
  rw [getLsbD_ofBits, getLsbD_ofBits, h i hi]

/-- Bit j of an operand is bit j of the index port below W. -/
@[simp] theorem getLsbD_operand (W : Nat) (index : IndexPort) (j : Nat) :
    (operand W index).getLsbD j = (decide (j < W) && index.getLsbD j) := by
  simp [operand, BitVec.getLsbD_setWidth]

/-- An answer is always the next state that holds the request and its pair. -/
theorem answer_eq {H : Nat} (i : Instr) (c : Coords H) (s : State) :
    answer i c s = .next (takeResult (driveInputs s (encodeOp i) i.index) (placeResult c)) := rfl

/-- The one thing an operation does. -/
theorem exec_eq (i : Instr) (s : State) :
    exec i s = .next (takeResult (driveInputs s (encodeOp i) i.index) (resultOf i)) := by
  cases i <;> rfl

/-- Everything `exec` can answer. -/
theorem exec_eq_next_iff (i : Instr) (s t : State) :
    exec i s = .next t ↔ t = takeResult (driveInputs s (encodeOp i) i.index) (resultOf i) := by
  rw [exec_eq, Host.Outcome.next.injEq]
  exact eq_comm

/-- The code of a request put together from its ports (30_encoding.md R56). -/
@[simp] theorem opField_append (op : OpCode) (index : IndexPort) :
    opField (op ++ index : BitVec (3 + 64)) = op := by
  apply BitVec.eq_of_getLsbD_eq
  intro j hj
  have h : (op ++ index : BitVec (3 + 64)).getLsbD (64 + j) = op.getLsbD j := by
    rw [BitVec.getLsbD_append]
    simp
  rw [opField, BitVec.getLsbD_extractLsb', h]
  simp [hj]

/-- The index of a request put together from its ports (30_encoding.md R56). -/
@[simp] theorem indexField_append (op : OpCode) (index : IndexPort) :
    indexField (op ++ index : BitVec (3 + 64)) = index := by
  apply BitVec.eq_of_getLsbD_eq
  intro j hj
  have h : (op ++ index : BitVec (3 + 64)).getLsbD (0 + j) = index.getLsbD j := by
    rw [BitVec.getLsbD_append]
    simp [hj]
  rw [indexField, BitVec.getLsbD_extractLsb', h]
  simp [hj]

/-- What the ports select. -/
theorem fetchInstr_eq (s : State) : fetchInstr s = decodeOp s.op s.index := by
  have ho : opField (requestOf s) = s.op := opField_append s.op s.index
  have hi : indexField (requestOf s) = s.index := indexField_append s.op s.index
  rw [fetchInstr, decode, ho, hi]

/-- The eight codes are all there are (30_encoding.md R62). -/
theorem opCode_cases (op : OpCode) : op = 0#3 ∨ op = 1#3 ∨ op = 2#3 ∨ op = 3#3 ∨ op = 4#3 ∨
    op = 5#3 ∨ op = 6#3 ∨ op = 7#3 := by
  revert op
  decide

/-- The meaning that a code selects is the unit's function at that code (30_encoding.md R61). -/
theorem resultOf_decodeOp (op : OpCode) (index : IndexPort) :
    resultOf (decodeOp op index) = sfcDecodeUnit op index := by
  rcases opCode_cases op with rfl | rfl | rfl | rfl | rfl | rfl | rfl | rfl <;> rfl

/-- The code that an operation is decoded from (30_encoding.md R62). -/
@[simp] theorem encodeOp_decodeOp (op : OpCode) (index : IndexPort) :
    encodeOp (decodeOp op index) = op := by
  rcases opCode_cases op with rfl | rfl | rfl | rfl | rfl | rfl | rfl | rfl <;> rfl

/-- Every decoded operation keeps its index (30_encoding.md R56). -/
@[simp] theorem index_decodeOp (op : OpCode) (index : IndexPort) :
    (decodeOp op index).index = index := by
  rcases opCode_cases op with rfl | rfl | rfl | rfl | rfl | rfl | rfl | rfl <;> rfl

/-- The one thing a step does: the pair on the outputs is received (20_memory.md R45). -/
theorem step_eq (s : State) : step s = .next (takeResult s (outputsOf s)) := by
  rw [step, exec_eq, fetchInstr_eq, encodeOp_decodeOp, index_decodeOp, resultOf_decodeOp]
  rfl

/-- The one thing serving a request does. -/
theorem serve_eq (w : Request) (s : State) :
    serve w s = .next (takeResult (presentRequest s w) (sfcDecodeUnit (opField w) (indexField w))) :=
  step_eq _

/-- Serving a list, one request further. -/
theorem serveAll_cons (w : Request) (ws : List Request) (s : State) :
    serveAll (w :: ws) s = serveAll ws
      (takeResult (presentRequest s w) (sfcDecodeUnit (opField w) (indexField w))) := by
  rw [serveAll, serve_eq]

/-- The trace of a list, one request further. -/
theorem resultTrace_cons (w : Request) (ws : List Request) (s : State) :
    resultTrace (w :: ws) s = sfcDecodeUnit (opField w) (indexField w) :: resultTrace ws
      (takeResult (presentRequest s w) (sfcDecodeUnit (opField w) (indexField w))) := by
  rw [resultTrace, serve_eq]
  rfl

/-- What serving at one instance does to the row of instances. -/
theorem serveAt_eq {n : Nat} (k : Fin n) (w : Request) (units : Vector State n) :
    serveAt k w units = .next (units.set k.val
      (takeResult (presentRequest (units[k.val]'k.isLt) w)
        (sfcDecodeUnit (opField w) (indexField w))) k.isLt) := by
  rw [serveAt, serve_eq]

/-- Level steps in two batches. -/
theorem runLevels_add (W : Nat) (entry : Orientation → Group → LutEntry) (index : BitVec W)
    (m n : Nat) (w : HilbertWork W) :
    runLevels W entry index (m + n) w =
      runLevels W entry index n (runLevels W entry index m w) := by
  induction m generalizing w with
  | zero => simp [runLevels]
  | succ m ih =>
    rw [Nat.add_right_comm]
    simp only [runLevels, ih]

/-- Level steps, the last one split off. -/
theorem runLevels_succ_last (W : Nat) (entry : Orientation → Group → LutEntry) (index : BitVec W)
    (n : Nat) (w : HilbertWork W) :
    runLevels W entry index (n + 1) w =
      levelStep W entry index (runLevels W entry index n w) := by
  rw [runLevels_add]
  rfl

/-- Bit j of the group of a level. -/
theorem getLsbD_groupAt (W : Nat) (index : BitVec W) (l j : Nat) :
    (groupAt W index l).getLsbD j =
      (decide (j < 2) && index.getLsbD (W - 2 - 2 * l + j)) := by
  simp [groupAt, BitVec.getLsbD_setWidth, BitVec.getLsbD_ushiftRight]

/-- The group of a level as a number: two binary digits of the index (41_hilbert.md R100). -/
theorem toNat_groupAt (W : Nat) (index : BitVec W) (l : Nat) :
    (groupAt W index l).toNat = index.toNat / 2 ^ (W - 2 - 2 * l) % 4 := by
  simp [groupAt, Nat.shiftRight_eq_div_pow]

/-- A contribution as a number: the bit times the cell half-size, with no overflow
(41_hilbert.md R95, 90_conflicts.md C4). -/
theorem toNat_scaledBit (H l : Nat) (d : Bool) (h : l < H) :
    (scaledBit H l d).toNat = bitNat d * 2 ^ (H - 1 - l) := by
  have half : 2 ^ (H - 1 - l) < 2 ^ H := Nat.pow_lt_pow_right (by omega) (by omega)
  have one : 1 < 2 ^ H := Nat.one_lt_two_pow (by omega)
  cases d
  · simp [scaledBit, bitNat]
  · simp [scaledBit, bitNat, BitVec.toNat_shiftLeft, Nat.shiftLeft_eq, Nat.mod_eq_of_lt one,
      Nat.mod_eq_of_lt half]

/-- Every tag is read back (10_state.md R30). -/
@[simp] theorem orientationOfTag_orientationTag (o : Orientation) :
    orientationOfTag (orientationTag o) = o := by
  cases o <;> decide

/-- Every entry is read back from its word (41_hilbert.md R99). -/
@[simp] theorem unpackEntry_packEntry (e : LutEntry) : unpackEntry (packEntry e) = e := by
  obtain ⟨dx, dy, next⟩ := e
  cases dx <;> cases dy <;> cases next <;> decide

end Sys2Proof.Machine
end

