-- ==== Sys2Proof/Laws/PerInstr.lean ====
section
/-!
SUPPORT. Per-instruction families. `EncodesAsTable`: the request that encodes an operation carries the
fixed bits of that operation's row of spec/opcode_table.json, and its whole index.
-/

namespace Sys2Proof

/-- Bit j of an encoded request: the index below bit 64, `op` from there (30_encoding.md R56). -/
theorem getLsbD_encode (i : Instr) (j : Nat) :
    (encode i).getLsbD j =
      if j < 64 then i.index.getLsbD j else (encodeOp i).getLsbD (j - 64) :=
  BitVec.getLsbD_append

/-- `op` of an encoded request (30_encoding.md R56). -/
@[simp] theorem opField_encode (i : Instr) : opField (encode i) = encodeOp i := by
  apply BitVec.eq_of_getLsbD_eq
  intro j hj
  simp [opField, hj, getLsbD_encode]

/-- The index of an encoded request is the operand, all 64 bits (30_encoding.md R56). -/
@[simp] theorem indexField_encode (i : Instr) : indexField (encode i) = i.index := by
  apply BitVec.eq_of_getLsbD_eq
  intro j hj
  simp [indexField, hj, getLsbD_encode]

namespace Laws.EncodesAsTable

/-- The encoding of an operation matches its row of the opcode table and keeps its index. -/
def Statement (i : Instr) : Prop :=
  ∃ row, row ∈ opcodeTable ∧ row.mnemonic = mnemonicOf i ∧ row.kind = i.kind ∧
    row.width = i.width ∧ rowMatches row (encode i) = true ∧ indexField (encode i) = i.index

/-- From a row that has the operation's `op` as its fixed bits to the statement. -/
theorem of_row (i : Instr) (row : OpcodeRow) (op : OpCode) (hop : encodeOp i = op)
    (hm : row ∈ opcodeTable)
    (hmask : row.mask = (7#3 ++ 0#64 : BitVec (3 + 64)))
    (hpattern : row.pattern = (op ++ 0#64 : BitVec (3 + 64)))
    (hn : row.mnemonic = mnemonicOf i) (hk : row.kind = i.kind) (hw : row.width = i.width) :
    Statement i := by
  refine ⟨row, hm, hn, hk, hw, ?_, indexField_encode i⟩
  have h : (encodeOp i ++ i.index) &&& (7#3 ++ 0#64) =
      (encodeOp i &&& 7#3) ++ (i.index &&& 0#64) := BitVec.and_append
  have h7 : ∀ op : OpCode, op &&& 7#3 = op := by decide
  rw [h7, BitVec.and_zero] at h
  rw [rowMatches, hmask, hpattern, ← hop]
  exact beq_iff_eq.mpr h

theorem mortonDecode8 (index : IndexPort) : Statement (.mortonDecode8 index) :=
  of_row _ ⟨"morton.decode.8", 0x0, 0x70000000000000000, .morton, 8⟩ 0#3 rfl
    (by decide) rfl rfl rfl rfl rfl

theorem mortonDecode16 (index : IndexPort) : Statement (.mortonDecode16 index) :=
  of_row _ ⟨"morton.decode.16", 0x10000000000000000, 0x70000000000000000, .morton, 16⟩ 1#3 rfl
    (by decide) rfl rfl rfl rfl rfl

theorem mortonDecode32 (index : IndexPort) : Statement (.mortonDecode32 index) :=
  of_row _ ⟨"morton.decode.32", 0x20000000000000000, 0x70000000000000000, .morton, 32⟩ 2#3 rfl
    (by decide) rfl rfl rfl rfl rfl

theorem mortonDecode64 (index : IndexPort) : Statement (.mortonDecode64 index) :=
  of_row _ ⟨"morton.decode.64", 0x30000000000000000, 0x70000000000000000, .morton, 64⟩ 3#3 rfl
    (by decide) rfl rfl rfl rfl rfl

theorem hilbertDecode8 (index : IndexPort) : Statement (.hilbertDecode8 index) :=
  of_row _ ⟨"hilbert.decode.8", 0x40000000000000000, 0x70000000000000000, .hilbert, 8⟩ 4#3 rfl
    (by decide) rfl rfl rfl rfl rfl

theorem hilbertDecode16 (index : IndexPort) : Statement (.hilbertDecode16 index) :=
  of_row _ ⟨"hilbert.decode.16", 0x50000000000000000, 0x70000000000000000, .hilbert, 16⟩ 5#3 rfl
    (by decide) rfl rfl rfl rfl rfl

theorem hilbertDecode32 (index : IndexPort) : Statement (.hilbertDecode32 index) :=
  of_row _ ⟨"hilbert.decode.32", 0x60000000000000000, 0x70000000000000000, .hilbert, 32⟩ 6#3 rfl
    (by decide) rfl rfl rfl rfl rfl

theorem hilbertDecode64 (index : IndexPort) : Statement (.hilbertDecode64 index) :=
  of_row _ ⟨"hilbert.decode.64", 0x70000000000000000, 0x70000000000000000, .hilbert, 64⟩ 7#3 rfl
    (by decide) rfl rfl rfl rfl rfl

end Laws.EncodesAsTable

end Sys2Proof
end

