-- ==== Sys2Proof/Tests/Slice0.lean ====
section
/-!
SUPPORT. The model's own tests. Every expected value is the spec's: the rule, or the entry of
95_test_vectors.md, is named beside it. Then a witness for each statement with hypotheses.
-/

namespace Sys2Proof.Tests

open Sys2Proof.Machine

/-! ### Decoding: words written out bit by bit from 30_encoding.md R56 and R62 -/

theorem test_decode_morton8 :
    decode 0b0001111111111111111111111111111111111111111111111111111111110110100#67 =
      .mortonDecode8 0xFFFFFFFFFFFFFFB4 := by decide

theorem test_decode_morton16 :
    decode 0b0010000000000000000000000000000000011111111111111110000000000000000#67 =
      .mortonDecode16 0x00000000FFFF0000 := by decide

theorem test_decode_morton32 :
    decode 0b0101101111010101101101111101110111110001001101010111100110111101111#67 =
      .mortonDecode32 0xDEADBEEF89ABCDEF := by decide

theorem test_decode_morton64 :
    decode 0b0110000000000000000000000000000000000000000000000000000000010110100#67 =
      .mortonDecode64 0x00000000000000B4 := by decide

theorem test_decode_hilbert8 :
    decode 0b1000000000000000000000000000000000000000000000000000000000010110100#67 =
      .hilbertDecode8 0x00000000000000B4 := by decide

theorem test_decode_hilbert16 :
    decode 0b1010001001000110100000000000000000000000000000000001100110111101111#67 =
      .hilbertDecode16 0x123400000000CDEF := by decide

theorem test_decode_hilbert32 :
    decode 0b1100000000000000000000000000000000000000000000000000000101101000000#67 =
      .hilbertDecode32 0x0000000000000B40 := by decide

theorem test_decode_hilbert64 :
    decode 0b1110000000100100011010001010110011110001001101010111100110111101111#67 =
      .hilbertDecode64 0x0123456789ABCDEF := by decide

theorem test_decode_refuses_68_bits : decodeTableWord 72 (2 ^ 67) = none := by decide
theorem test_encode_hilbert64 :
    encode (.hilbertDecode64 0x0123456789ABCDEF) = 0x70123456789ABCDEF#67 := by decide

/-! ### Well-formedness: what each check refuses -/

theorem test_width_odd_refused : validWidth 7 = false := by decide
theorem test_width_zero_refused : validWidth 0 = false := by decide
theorem test_width_six_valid_no_instance : validWidth 6 = true ∧ instanceWidth 6 = false := by decide
theorem test_width_128_no_instance : instanceWidth 128 = false := by decide
theorem test_ignored_bit_not_canonical : (Instr.mortonDecode8 0x100).canonical = false := by decide
theorem test_line_width_refused : (SourceLine.request .morton 12 0).wellFormed = false := by decide
theorem test_line_literal_refused : (SourceLine.request .hilbert 8 256).wellFormed = false := by decide
theorem test_raw_op_refused : (SourceLine.raw 8 0).wellFormed = false := by decide
theorem test_raw_index_refused : (SourceLine.raw 0 (2 ^ 64)).wellFormed = false := by decide
theorem test_every_instr_wellformed : (Instr.mortonDecode8 0x100).wellFormed = true := by decide

/-! ### One step of each operation -/

/-- The results of one step on a table word, from reset. -/
def answerTo (w : Nat) : Option (Coords 32) :=
  match step (State.reset.withFetchWord 72 w) with
  | .next t => some (resultsOf t)
  | .fault _ => none
  | .refused _ => none

/-- L2-5. -/
theorem test_mortonDecode8_ignores_high_bits :
    answerTo 0xFFFFFFFFFFFFFFB4 = some ⟨0x6, 0xC⟩ := by decide

/-- R81. -/
theorem test_mortonDecode8_top_bit :
    answerTo 0x80 = some ⟨0x0, 0x8⟩ := by decide

/-- R82. -/
theorem test_mortonDecode16_worked :
    answerTo 0x1000000000000CDEF = some ⟨0xBB, 0xAF⟩ := by decide

/-- L2-5. -/
theorem test_mortonDecode16_ignored_only :
    answerTo 0x100000000FFFF0000 = some ⟨0x0, 0x0⟩ := by decide

/-- L2-5. -/
theorem test_mortonDecode32_worked :
    answerTo 0x2DEADBEEF89ABCDEF = some ⟨0x11BB, 0xAFAF⟩ := by decide

/-- R83. -/
theorem test_mortonDecode32_top_bit :
    answerTo 0x20000000080000000 = some ⟨0x0, 0x8000⟩ := by decide

/-- R84. -/
theorem test_mortonDecode64_worked :
    answerTo 0x30123456789ABCDEF = some ⟨0x11BB11BB, 0x505AFAF⟩ := by decide

/-- R84. -/
theorem test_mortonDecode64_top_bit :
    answerTo 0x38000000000000000 = some ⟨0x0, 0x80000000⟩ := by decide

/-- R106. -/
theorem test_hilbertDecode8_worked :
    answerTo 0x400000000000000B4 = some ⟨0xD, 0xB⟩ := by decide

/-- L1-4. -/
theorem test_hilbertDecode8_terminal :
    answerTo 0x400000000000000FF = some ⟨0xF, 0x0⟩ := by decide

/-- L2-5. -/
theorem test_hilbertDecode16_worked :
    answerTo 0x5123400000000CDEF = some ⟨0xD0, 0x6B⟩ := by decide

/-- R107. -/
theorem test_hilbertDecode16_next :
    answerTo 0x5000000000000CDF0 = some ⟨0xD0, 0x6C⟩ := by decide

/-- R108. -/
theorem test_hilbertDecode32_worked :
    answerTo 0x60000000089ABCDEF = some ⟨0xBE2F, 0xAF94⟩ := by decide

/-- R108. -/
theorem test_hilbertDecode32_next :
    answerTo 0x60000000089ABCDF0 = some ⟨0xBE2F, 0xAF93⟩ := by decide

/-- R109. -/
theorem test_hilbertDecode64_worked :
    answerTo 0x70123456789ABCDEF = some ⟨0x14C1BE2F, 0x57AAF94⟩ := by decide

/-- R109. -/
theorem test_hilbertDecode64_corner :
    answerTo 0x7B400000000000000 = some ⟨0xDFFFFFFF, 0xBFFFFFFF⟩ := by decide

/-! ### The generic definitions at small widths (95_test_vectors.md L1-1, L2-2) -/

/-- L1-1, the golden table of W = 4. -/
theorem test_morton_golden_table :
    (List.range 16).map (fun i => cellOf (mortonDecode 4 (BitVec.ofNat 4 i))) =
      [(0, 0), (1, 0), (0, 1), (1, 1), (2, 0), (3, 0), (2, 1), (3, 1),
       (0, 2), (1, 2), (0, 3), (1, 3), (2, 2), (3, 2), (2, 3), (3, 3)] := by decide

/-- L2-2, W = 2. -/
theorem test_hilbert_width2 :
    (List.range 4).map (fun i => cellOf (hilbertDecode 2 (BitVec.ofNat 2 i))) =
      [(0, 0), (0, 1), (1, 1), (1, 0)] := by decide

/-- L2-2, W = 4. -/
theorem test_hilbert_width4 :
    (List.range 16).map (fun i => cellOf (hilbertDecode 4 (BitVec.ofNat 4 i))) =
      [(0, 0), (1, 0), (1, 1), (0, 1), (0, 2), (0, 3), (1, 3), (1, 2),
       (2, 2), (2, 3), (3, 3), (3, 2), (3, 1), (2, 1), (2, 0), (3, 0)] := by decide

/-- L2-2, W = 6, indices 8 to 15. -/
theorem test_hilbert_width6 :
    (List.range 8).map (fun i => cellOf (hilbertDecode 6 (BitVec.ofNat 6 (i + 8)))) =
      [(2, 2), (3, 2), (3, 3), (2, 3), (1, 3), (1, 2), (0, 2), (0, 3)] := by decide

/-- R99, the row of REFL_B. -/
theorem test_lut_reflB :
    [0#2, 1#2, 2#2, 3#2].map (lutRead hilbertLut .reflB) =
      [⟨true, true, .rot180⟩, ⟨false, true, .reflB⟩, ⟨false, false, .reflB⟩,
       ⟨true, false, .ident⟩] := by decide

/-- L2-1, the stages of the mask algorithm for y at W = 32. -/
theorem test_compact_stages32 :
    (List.range 5).map (compactStages 32 (0x89ABCDEF#32 >>> 1)) =
      [0x44554455#32, 0x22332233#32, 0x0A0F0A0F#32, 0x00AF00AF#32, 0x0000AFAF#32] := by rfl

/-! ### Requests, the writable realisation, the assembler -/

/-- R33: the outputs follow the inputs at once, before any step (L2-5). -/
theorem test_outputs_follow_inputs :
    (State.reset.withFetchWord 72 0x5123400000000CDEF).xOut = 0xD0 ∧
      (State.reset.withFetchWord 72 0x5123400000000CDEF).yOut = 0x6B ∧
      State.reset.xOut = 0 ∧ State.reset.yOut = 0 := by decide

/-- Program P1, its last three requests: the results, from a state that holds other results. -/
theorem test_program_p1_end :
    resultTrace [0x40000000000000080#67, 0x400000000000000BF#67, 0x400000000000000C0#67]
        ⟨5, 6, 7, 8⟩ =
      [⟨8, 8⟩, ⟨0xF, 8⟩, ⟨0xF, 7⟩] := by decide

/-- R142: refused before the load. -/
theorem test_writable_refuses_before_load :
    writableStep (writablePresent writablePowerUp 0x400000000000000B4#67) =
      .refused .lutNotLoaded := rfl

/-- R142, R106: after the load it answers. -/
theorem test_writable_answers_after_load :
    writableStep (writablePresent (writableLoad writablePowerUp) 0x400000000000000B4#67) =
      .next ⟨⟨4, 0xB4, 0xD, 0xB⟩, some hilbertLut⟩ := rfl

/-- R65: its example, the request and its result. -/
theorem test_assemble_example :
    assembleText "morton.decode.8 0x1B".toList = .ok (.mortonDecode8 0x1B) ∧
      writeResult (mortonDecode 8 0x1B#8) = "-> (0x5, 0x3)".toList := by decide

/-- R65: a literal of at least 2^W is refused, not truncated. -/
theorem test_assemble_refuses :
    assembleText "morton.decode.8 0x1_00".toList = .error (.literalTooLarge 8 256) := by decide

/-- R66: a raw request may set ignored bits. -/
theorem test_assemble_raw :
    assembleText "raw 0b001 0x00000000FFFF0000".toList = .ok (.mortonDecode16 0xFFFF0000) := by
  decide

/-- R66: the code of a raw request is a 3-bit literal, all three digits of it. -/
theorem test_raw_code_is_three_digits :
    readLine "raw 0b110 0x0".toList = some (.raw 6 0) ∧
      readLine "raw 0b1_0 0x0".toList = none ∧ readLine "raw 0b10 0x0".toList = none ∧
      readLine "raw 0b0101 0x0".toList = none ∧ readLine "raw 0b102 0x0".toList = none := by
  decide

/-! ### Witnesses: the hypotheses of each statement that has some, met together -/

/-- A small state with nothing at its reset value. -/
def busy : State := ⟨0b110#3, 0xB4#64, 0x7#32, 0x9#32⟩

/-- The answer of an operation to a state, for naming a witness's next state. -/
def after (i : Instr) (s : State) : State :=
  takeResult (driveInputs s (encodeOp i) i.index) (resultOf i)

theorem test_witness_DecodeOfEncode :
    (Instr.hilbertDecode64 0xFFFFFFFFFFFFFFFF).wellFormed = true ∧ 67 ≤ 67 := by decide

theorem test_witness_KindAndWidthCode :
    (0b100#3).extractLsb' 0 2 = 0b00#2 ∧ (0b001#3).extractLsb' 0 2 = 0b01#2 ∧
      (0b110#3).extractLsb' 0 2 = 0b10#2 ∧ (0b111#3).extractLsb' 0 2 = 0b11#2 := by decide

theorem test_witness_EveryRequestMatchesOneRow :
    ∃ other ∈ opcodeTable, rowMatches other 0x70000000000000001#67 = true := by decide

theorem test_witness_StepRunsTheDecodedInstr :
    decode (busy.op ++ busy.index) = .hilbertDecode32 0xB4 ∧
      (Instr.hilbertDecode32 0xB4).wellFormed = true ∧
      step busy = .next (after (.hilbertDecode32 0xB4) busy) := ⟨by decide, by decide, rfl⟩

theorem test_witness_PlacedRequestRunsNext :
    decodeTableWord 72 0x7FFFFFFFFFFFFFFFF = some (.hilbertDecode64 0xFFFFFFFFFFFFFFFF) ∧
      decodeTableWord 8 0x1FF = some (.mortonDecode8 0xFF) := by decide

theorem test_witness_IgnoredBitsHaveNoEffect :
    (∀ j, j < widthOfOp 0b000#3 → (0x1B4#64).getLsbD j = (0xB4#64).getLsbD j) ∧
      exec (decodeOp 0b111#3 5) busy = .next (after (.hilbertDecode64 5) busy) ∧
      exec (decodeOp 0b011#3 5) busy = .next (after (.mortonDecode64 5) busy) :=
  ⟨by decide, rfl, rfl⟩

theorem test_witness_ResultsAreZeroExtended :
    exec (.mortonDecode8 0x1B4) busy = .next (after (.mortonDecode8 0x1B4) busy) ∧
      (Instr.mortonDecode8 0x1B4).width / 2 ≤ 4 := ⟨rfl, by decide⟩

theorem test_witness_EveryStepSettlesTheOutputs :
    step busy = .next (after (.hilbertDecode32 0xB4) busy) ∧ settled busy = false :=
  ⟨rfl, by decide⟩

theorem test_witness_RepeatedRequestIsIdempotent :
    step busy = .next (after (.hilbertDecode32 0xB4) busy) := rfl

theorem test_witness_InstancesAreIndependent :
    (0 : Fin 2) ≠ 1 ∧
      serveAt (1 : Fin 2) 0xB4#67 #v[busy, State.reset] =
        .next #v[busy, after (.mortonDecode8 0xB4) (presentRequest State.reset 0xB4#67)] :=
  ⟨by decide, rfl⟩

theorem test_witness_AllInstancesStaySettled :
    (∀ j : Fin 2, UnitInv #v[State.reset, State.reset][j]) ∧
      serveAt (1 : Fin 2) 0xB4#67 #v[State.reset, State.reset] =
        .next #v[State.reset, after (.mortonDecode8 0xB4) (presentRequest State.reset 0xB4#67)] := by
  refine ⟨fun j => ?_, rfl⟩
  have h : UnitInv State.reset := ⟨by decide, by decide, by decide⟩
  match j with
  | 0 => exact h
  | 1 => exact h

theorem test_witness_ComponentsNeedEvenWidths : ∀ H, 3 ≠ 2 * H := by omega

theorem test_witness_MortonBitEquations : validWidth 8 = true ∧ 3 < 8 / 2 := by decide

theorem test_witness_MaskConstants : 2 < 3 ∧ 7 < 2 ^ 3 ∧ 0 < 2 ^ (0 + 1) := by decide

theorem test_witness_CompactStageInvariant :
    1 < 3 ∧ 3 < 2 ^ (1 + 1) ∧ 2 ^ (1 + 1) * 1 + 3 < 2 ^ 3 := by decide

theorem test_witness_MaskAlgorithmEqualsBitSelection :
    1 ≤ 1 ∧ validWidth 6 = true ∧ 6 ≤ 2 ^ 3 := by decide

theorem test_witness_MortonIsBijective : validWidth 2 = true ∧ 0 < 2 / 2 := by decide

theorem test_witness_every_even_width : validWidth 2 = true ∧ validWidth 64 = true := by decide

theorem test_witness_MortonAgreesAcrossWidths :
    validWidth 4 = true ∧ validWidth (4 - 2) = true ∧ (3#4).toNat < 2 ^ (4 - 2) := by decide

theorem test_witness_MortonIsSeparable :
    validWidth 2 = true ∧ (∀ i, (0b01#2).getLsbD (2 * i) = (0b11#2).getLsbD (2 * i)) ∧
      ∀ i, (0b10#2).getLsbD (2 * i + 1) = (0b11#2).getLsbD (2 * i + 1) := by
  refine ⟨by decide, fun i => ?_, fun i => ?_⟩
  · cases i with
    | zero => rfl
    | succ n => rw [BitVec.getLsbD_of_ge _ _ (by omega), BitVec.getLsbD_of_ge _ _ (by omega)]
  · cases i with
    | zero => rfl
    | succ n => rw [BitVec.getLsbD_of_ge _ _ (by omega), BitVec.getLsbD_of_ge _ _ (by omega)]

theorem test_witness_OrientationsFormAGroup : 0 < 1 ∧ 7 < 8 := by decide

theorem test_witness_LevelsSetDistinctBits : validWidth 8 = true ∧ 0 < 8 / 2 ∧ 3 < 8 / 2 := by
  decide

theorem test_witness_CurveIsTheImageOfIdent : 0 < 4 ^ 0 ∧ 3 < 4 ^ 1 := by decide

theorem test_witness_DistinctQuadrantsDecodeBijectively :
    (∀ o, Function.Injective fun g => ((lutRead hilbertLut o g).dx, (lutRead hilbertLut o g).dy)) ∧
      validWidth 2 = true := by
  refine ⟨fun o a b => ?_, by decide⟩
  revert a b
  cases o <;> decide

theorem test_witness_HilbertConsecutiveCellsShareAnEdge :
    validWidth 2 = true ∧ 2 + 1 < 2 ^ 2 := by decide

theorem test_witness_HilbertAcrossWidths :
    validWidth 8 = true ∧ validWidth (8 - 2 * 1) = true ∧ (63#8).toNat < 2 ^ (8 - 2 * 1) ∧
      validWidth (8 - 2 * 3) = true ∧ (3#8).toNat < 2 ^ (8 - 2 * 3) := by decide

theorem test_witness_InstanceWidthsAgree :
    kindOfOp 0b100#3 = kindOfOp 0b111#3 ∧ (255#64).toNat < 2 ^ widthOfOp 0b100#3 ∧
      (255#64).toNat < 2 ^ widthOfOp 0b111#3 := by decide

theorem test_witness_ConsecutiveHilbertRequestsAreAdjacent :
    kindOfOp 0b100#3 = .hilbert ∧ (254#64).toNat + 1 < 2 ^ widthOfOp 0b100#3 := by decide

theorem test_witness_WritableTableNeedsItsLoad :
    (⟨busy, none⟩ : WritableUnit).lut = none ∧ kindOfOp busy.op = .hilbert ∧
      kindOfOp State.reset.op = .morton ∧
      writableStep ⟨busy, some hilbertLut⟩ =
        .next ⟨after (.hilbertDecode32 0xB4) busy, some hilbertLut⟩ :=
  ⟨rfl, by decide, by decide, rfl⟩

theorem test_witness_AssemblerRefusesWideLiterals :
    assembleLine (.request .morton 8 255) = .ok (.mortonDecode8 255) ∧
      instanceWidth 8 = true ∧ 2 ^ 8 ≤ 256 ∧
      assembleLine (.raw 7 (2 ^ 64 - 1)) = .ok (.hilbertDecode64 0xFFFFFFFFFFFFFFFF) := by decide

theorem test_witness_WrittenLinesAreReadBack :
    (SourceLine.request .hilbert 64 (2 ^ 64 - 1)).wellFormed = true ∧
      (SourceLine.raw 7 0).wellFormed = true := by decide

theorem test_witness_OutputsAreTheFunctionOfTheInputs :
    busy.op = (after (.hilbertDecode32 0xB4) busy).op ∧
      busy.index = (after (.hilbertDecode32 0xB4) busy).index ∧
      busy ≠ after (.hilbertDecode32 0xB4) busy ∧
      exec (.hilbertDecode32 0xB4) busy = .next (after (.hilbertDecode32 0xB4) busy) :=
  ⟨rfl, rfl, by decide, rfl⟩

end Sys2Proof.Tests
end

section
/-!
The widths for which a component is built (00_scope.md R6, 93 U2), and what each of the two components
answers at a width, said once.
-/

namespace Sys2Proof

theorem validWidth_iff (W : Nat) : validWidth W = true ↔ 2 ≤ W ∧ ∃ H, W = 2 * H := by
  have half : W % 2 = 0 ↔ ∃ H, W = 2 * H := Nat.dvd_iff_mod_eq_zero.symm
  simp only [validWidth, Bool.and_eq_true, beq_iff_eq, decide_eq_true_eq, half, and_comm]

theorem validWidth_eq_false_of_odd {W : Nat} (odd : ∀ H, W ≠ 2 * H) : validWidth W = false := by
  refine Bool.eq_false_iff.mpr fun valid => ?_
  obtain ⟨-, H, even⟩ := (validWidth_iff W).mp valid
  exact odd H even

namespace Machine

section Components

variable {W : Nat} {index : BitVec W} {c : Coords (W / 2)} {e : WidthError}

theorem mortonDecoder_eq_ok_iff :
    mortonDecoder W index = .ok c ↔ validWidth W = true ∧ mortonDecode W index = c := by
  cases valid : validWidth W <;> simp [mortonDecoder, valid]

theorem mortonDecoder_eq_error_iff :
    mortonDecoder W index = .error e ↔ validWidth W = false ∧ .notAnIndexWidth W = e := by
  cases valid : validWidth W <;> simp [mortonDecoder, valid]

theorem hilbertDecoder_eq_ok_iff :
    hilbertDecoder W index = .ok c ↔ validWidth W = true ∧ hilbertDecode W index = c := by
  cases valid : validWidth W <;> simp [hilbertDecoder, valid]

theorem hilbertDecoder_eq_error_iff :
    hilbertDecoder W index = .error e ↔ validWidth W = false ∧ .notAnIndexWidth W = e := by
  cases valid : validWidth W <;> simp [hilbertDecoder, valid]

end Components

end Machine

/-- Settles O29: each component's check is `validWidth`, which says even and at least 2. -/
theorem componentsNeedEvenWidths : Obligations.ComponentsNeedEvenWidths := by
  intro W index
  refine ⟨?morton, ?hilbert, fun odd => ?refused⟩
  case morton =>
    rw [Machine.mortonDecoder_eq_ok_iff, and_iff_left rfl, validWidth_iff]
  case hilbert =>
    rw [Machine.hilbertDecoder_eq_ok_iff, and_iff_left rfl, validWidth_iff]
  case refused =>
    have invalid := validWidth_eq_false_of_odd odd
    exact ⟨Machine.mortonDecoder_eq_error_iff.mpr ⟨invalid, rfl⟩,
      Machine.hilbertDecoder_eq_error_iff.mpr ⟨invalid, rfl⟩⟩

end Sys2Proof
end

section
/-!
Requests taken apart and put together again (30_encoding.md R56, R62), and which numbers are table
words.
-/

namespace Sys2Proof

@[simp] theorem decodeOp_encodeOp (i : Instr) : decodeOp (encodeOp i) i.index = i := by
  cases i <;> simp [encodeOp, decodeOp, Instr.index]

theorem opField_append_indexField (w : Request) : opField w ++ indexField w = w :=
  (BitVec.extractLsb'_append_extractLsb'_eq_extractLsb' (start₁ := 0) rfl).trans
    BitVec.extractLsb'_eq_self

theorem encode_decode (w : Request) : encode (decode w) = w := by
  rw [encode, decode, Machine.encodeOp_decodeOp, Machine.index_decodeOp,
    opField_append_indexField]

theorem decodeTableWord_eq_some_iff (nbits w : Nat) (i : Instr) :
    decodeTableWord nbits w = some i ↔
      w % 2 ^ nbits < 2 ^ requestWidth ∧ decode (BitVec.ofNat 67 (w % 2 ^ nbits)) = i := by
  by_cases fits : w % 2 ^ nbits < 2 ^ requestWidth <;> simp [decodeTableWord, decodeNat, fits]

end Sys2Proof
end

section
/-!
The outputs (10_state.md R33): the result of the selected operation in every state, below 2^H
(30_encoding.md R60), so that the unit's invariant asks only that the results received are current.
-/

namespace Sys2Proof.Machine

theorem resultOf_eq_sfcDecodeUnit (i : Instr) : resultOf i = sfcDecodeUnit (encodeOp i) i.index := by
  rw [← resultOf_decodeOp, decodeOp_encodeOp]

theorem outputsOf_presentRequest (s : State) (w : Request) :
    outputsOf (presentRequest s w) = resultOf (decode w) :=
  (resultOf_decodeOp (opField w) (indexField w)).symm

theorem requestOf_presentRequest (s : State) (w : Request) : requestOf (presentRequest s w) = w :=
  opField_append_indexField w

theorem outputsOf_of_exec {i : Instr} {s t : State} (ran : exec i s = .next t) :
    outputsOf t = resultOf i := by
  rw [(exec_eq_next_iff i s t).mp ran, outputsOf_takeResult, outputsOf_driveInputs,
    resultOf_eq_sfcDecodeUnit]

/-- Placing an H-bit pair on the 32-bit ports makes neither coordinate larger. -/
theorem placeResult_lt {H : Nat} (c : Coords H) :
    (placeResult c).x.toNat < 2 ^ H ∧ (placeResult c).y.toNat < 2 ^ H := by
  rw [placeResult_x, placeResult_y, BitVec.toNat_setWidth, BitVec.toNat_setWidth]
  exact ⟨(Nat.mod_le ..).trans_lt c.x.isLt, (Nat.mod_le ..).trans_lt c.y.isLt⟩

theorem sfcDecodeUnit_lt (op : OpCode) (index : IndexPort) :
    (sfcDecodeUnit op index).x.toNat < 2 ^ (widthOfOp op / 2) ∧
      (sfcDecodeUnit op index).y.toNat < 2 ^ (widthOfOp op / 2) := by
  rw [sfcDecodeUnit, sfcDecodeUnitBy]
  cases kindOfOp op with
  | morton => exact placeResult_lt _
  | hilbert => exact placeResult_lt _

theorem outputsOf_reset : outputsOf State.reset = ⟨0#32, 0#32⟩ := by decide

theorem settled_iff (s : State) : settled s = true ↔ resultsOf s = outputsOf s := beq_iff_eq

end Sys2Proof.Machine

namespace Sys2Proof

/-- The bound of R60 holds of the outputs in every state, so the invariant is R33's equation alone. -/
theorem unitInv_iff (s : Machine.State) :
    UnitInv s ↔ Machine.resultsOf s = Machine.outputsOf s := by
  rw [UnitInv, Machine.settled_iff]
  exact and_iff_left (Machine.sfcDecodeUnit_lt s.op s.index)

end Sys2Proof
end

section
/-! The statements of 10_state.md about the outputs, the results received and the reset state. -/

namespace Sys2Proof

open Machine

/-- Settles O22: a step receives the pair on the outputs and changes none of them. -/
theorem everyStepSettlesTheOutputs : Obligations.EveryStepSettlesTheOutputs := by
  intro s t stepped
  rw [step_eq, Host.Outcome.next.injEq] at stepped
  rw [← stepped, unitInv_iff, resultsOf_takeResult, outputsOf_takeResult]

/-- Settles O8: the number is the encoding of the operation that it decodes to. -/
theorem placedRequestRunsNext : Obligations.PlacedRequestRunsNext := by
  intro s nbits w i decoded
  obtain ⟨-, decodes⟩ := (decodeTableWord_eq_some_iff nbits w i).mp decoded
  have request : requestOf (s.withFetchWord nbits w) = BitVec.ofNat 67 (w % 2 ^ nbits) :=
    requestOf_presentRequest _ _
  refine ⟨?runs, ?ports, ?outputs, resultsOf_presentRequest _ _⟩
  case runs => rw [step, fetchInstr, request, decodes]
  case ports => rw [request, ← decodes, encode_decode]
  case outputs => rw [State.withFetchWord, outputsOf_presentRequest, decodes]

/-- Settles O19: an operation drives its request and takes its result, which together
overwrite every field. -/
theorem operationsLeaveNoTrace : Obligations.OperationsLeaveNoTrace := by
  intro i s
  have outputs := outputsOf_of_exec (exec_eq i s)
  refine ⟨_, exec_eq i s, ⟨rfl, rfl, ?resultX, ?resultY⟩, exec_eq i⟩
  case resultX => exact congrArg Coords.x outputs.symm
  case resultY => exact congrArg Coords.y outputs.symm

/-- Settles O56: the outputs read the input ports alone, and there they are the selected result. -/
theorem outputsAreTheFunctionOfTheInputs : Obligations.OutputsAreTheFunctionOfTheInputs := by
  refine ⟨fun s s' sameOp sameIndex => ?inputsOnly, fun s w => ?presented, fun s => ?stepped,
    fun i s t ran => ?executed⟩
  case inputsOnly =>
    simp only [State.xOut, State.yOut, outputsOf, sameOp, sameIndex, and_self]
  case presented =>
    simp only [State.xOut, State.yOut, outputsOf_presentRequest, and_self]
  case stepped => exact ⟨_, step_eq s, rfl, rfl, rfl, rfl⟩
  case executed =>
    simp only [State.xOut, State.yOut, outputsOf_of_exec ran, and_self]

/-- Settles O23: index 0 of the Morton code decodes to the pair that the reset state holds. -/
theorem resetOutputsAreSettled : Obligations.ResetOutputsAreSettled :=
  ⟨(unitInv_iff State.reset).mpr outputsOf_reset.symm, rfl,
    congrArg Coords.x outputsOf_reset, congrArg Coords.y outputsOf_reset⟩

end Sys2Proof
end

section
/-!
Repeated requests and lists of requests (20_memory.md R46, R48): a settled state is a fixed point of the
step, and a trace carries nothing from one request to the next.
-/

namespace Sys2Proof

theorem run_eq_self_of_step_eq_self {M : Host.Core} {s : M.State} (fixed : M.step s = .next s)
    (n : Nat) : M.run n s = .next s := by
  induction n with
  | zero => rfl
  | succ n ih =>
    rw [Host.Core.run, fixed]
    exact ih

namespace Machine

@[simp] theorem takeResult_resultsOf (s : State) : takeResult s (resultsOf s) = s := rfl

theorem step_eq_self_iff (s : State) : step s = .next s ↔ resultsOf s = outputsOf s := by
  rw [step_eq, Host.Outcome.next.injEq]
  constructor
  · intro unchanged
    calc resultsOf s = resultsOf (takeResult s (outputsOf s)) := by rw [unchanged]
      _ = outputsOf s := resultsOf_takeResult ..
  · intro received
    rw [← received, takeResult_resultsOf]

end Machine

open Machine

/-- Settles O24: the first step settles the outputs (O22), and a settled state is a fixed point. -/
theorem repeatedRequestIsIdempotent : Obligations.RepeatedRequestIsIdempotent := by
  intro s t n stepped
  have received : resultsOf t = outputsOf t :=
    (unitInv_iff t).mp (everyStepSettlesTheOutputs s t stepped)
  have fixed : step t = .next t := (step_eq_self_iff t).mpr received
  exact run_eq_self_of_step_eq_self (M := core) fixed n

/-- Settles O25, by induction on the list, for every state at once: the head's entry does not read the
state that it is served from. -/
theorem traceIsTheFunctionOfEachRequest : Obligations.TraceIsTheFunctionOfEachRequest := by
  intro ws
  induction ws with
  | nil => exact fun _ => rfl
  | cons w ws ih =>
    intro s
    rw [resultTrace_cons, ih, List.map_cons]

end Sys2Proof
end

section
/-!
The decoder and the encoder as inverses (30_encoding.md R56, R62, R63), and the fields of a request as
the operation that it decodes to shows them (R57, R58).
-/

namespace Sys2Proof

@[simp] theorem decode_encode (i : Instr) : decode (encode i) = i := by
  rw [decode, opField_encode, indexField_encode, decodeOp_encodeOp]

/-- There is nothing to refuse in a request (30_encoding.md R63). -/
@[simp] theorem wellFormed_eq_true (i : Instr) : i.wellFormed = true := by
  cases i <;> rfl

@[simp] theorem kind_decodeOp (op : OpCode) (index : IndexPort) :
    (decodeOp op index).kind = kindOfOp op := by
  rcases Machine.opCode_cases op with rfl | rfl | rfl | rfl | rfl | rfl | rfl | rfl <;> rfl

@[simp] theorem width_decodeOp (op : OpCode) (index : IndexPort) :
    (decodeOp op index).width = widthOfOp op := by
  rcases Machine.opCode_cases op with rfl | rfl | rfl | rfl | rfl | rfl | rfl | rfl <;> rfl

theorem kindOfOp_opField (w : Request) :
    kindOfOp (opField w) = if w.getLsbD 66 then .hilbert else .morton := by
  simp [kindOfOp, opField]

theorem widthOfOp_opField (w : Request) :
    widthOfOp (opField w) = 2 ^ ((w.extractLsb' 64 2).toNat + 3) := by
  have wcode : (opField w).extractLsb' 0 2 = w.extractLsb' 64 2 := by
    apply BitVec.eq_of_getLsbD_eq
    intro j below
    simp [opField, below, show j < 3 by omega]
  rw [widthOfOp, wcode]

/-- Every width of an operation is one that a component is built for (00_scope.md R6). -/
theorem validWidth_widthOfOp (op : OpCode) : validWidth (widthOfOp op) = true := by
  have doubled : widthOfOp op = 2 * 2 ^ ((op.extractLsb' 0 2).toNat + 2) := pow_succ' 2 _
  have positive : 0 < 2 ^ ((op.extractLsb' 0 2).toNat + 2) := Nat.two_pow_pos _
  exact (validWidth_iff _).mpr ⟨by omega, _, doubled⟩

end Sys2Proof
end

section
/-! The statements of 30_encoding.md about requests as bits (R56 to R58, R62, R63). -/

namespace Sys2Proof

/-- Settles O1: the fields of an encoded operation are its code and its index, and a 67-bit number is
below every modulus of at least 67 bits. -/
theorem decodeOfEncode : Obligations.DecodeOfEncode := by
  intro i _
  refine ⟨decode_encode i, fun nbits wide => (decodeTableWord_eq_some_iff _ _ _).mpr ?_⟩
  have fits : (encode i).toNat < 2 ^ requestWidth := (encode i).isLt
  have kept : (encode i).toNat % 2 ^ nbits = (encode i).toNat :=
    Nat.mod_eq_of_lt (fits.trans_le (Nat.pow_le_pow_right two_pos wide))
  rw [kept, BitVec.ofNat_toNat, BitVec.setWidth_eq, decode_encode]
  exact ⟨fits, rfl⟩

/-- Settles O2. -/
theorem encodeOfDecode : Obligations.EncodeOfDecode :=
  fun w => ⟨wellFormed_eq_true (decode w), encode_decode w⟩

/-- Settles O4: the bits of `op` are the request's bits 66 to 64. -/
theorem kindAndWidthCode : Obligations.KindAndWidthCode := by
  refine ⟨fun w => ?request, fun op => ⟨rfl, ?_, ?_, ?_, ?_⟩⟩
  case request =>
    rw [decode, kind_decodeOp, width_decodeOp, Machine.index_decodeOp]
    exact ⟨kindOfOp_opField w, widthOfOp_opField w, rfl⟩
  all_goals
    intro wcode
    rw [widthOfOp, wcode]
    decide

/-- Settles O3, row by row. -/
theorem opcodeMapSelectsOperations : Obligations.OpcodeMapSelectsOperations := by
  refine ⟨fun index => ⟨rfl, rfl, rfl, rfl, rfl, rfl, rfl, rfl⟩, fun index => ?_⟩
  simp only [List.map_cons, List.map_nil, kind_decodeOp, width_decodeOp]
  rfl

end Sys2Proof
end

section
/-! The rows of the opcode table as patterns: one mask, and no pattern twice. -/

namespace Sys2Proof

theorem encodesAsTable (i : Instr) : Laws.EncodesAsTable.Statement i := by
  cases i with
  | mortonDecode8 index => exact Laws.EncodesAsTable.mortonDecode8 index
  | mortonDecode16 index => exact Laws.EncodesAsTable.mortonDecode16 index
  | mortonDecode32 index => exact Laws.EncodesAsTable.mortonDecode32 index
  | mortonDecode64 index => exact Laws.EncodesAsTable.mortonDecode64 index
  | hilbertDecode8 index => exact Laws.EncodesAsTable.hilbertDecode8 index
  | hilbertDecode16 index => exact Laws.EncodesAsTable.hilbertDecode16 index
  | hilbertDecode32 index => exact Laws.EncodesAsTable.hilbertDecode32 index
  | hilbertDecode64 index => exact Laws.EncodesAsTable.hilbertDecode64 index

theorem mask_eq_of_mem_opcodeTable :
    ∀ a ∈ opcodeTable, ∀ b ∈ opcodeTable, a.mask = b.mask := by decide

theorem eq_of_pattern_eq_of_mem_opcodeTable :
    ∀ a ∈ opcodeTable, ∀ b ∈ opcodeTable, a.pattern = b.pattern → a = b := by decide

theorem rowMatches_iff (row : OpcodeRow) (w : Request) :
    rowMatches row w = true ↔ w &&& row.mask = row.pattern := beq_iff_eq

theorem eq_of_rowMatches {a b : OpcodeRow} {w : Request} (ha : a ∈ opcodeTable)
    (hb : b ∈ opcodeTable) (matchesA : rowMatches a w = true) (matchesB : rowMatches b w = true) :
    a = b := by
  apply eq_of_pattern_eq_of_mem_opcodeTable a ha b hb
  rw [← (rowMatches_iff a w).mp matchesA, ← (rowMatches_iff b w).mp matchesB,
    mask_eq_of_mem_opcodeTable a ha b hb]

/-- Settles O5: `w` encodes the operation that it decodes to, which matches its own row. -/
theorem everyRequestMatchesOneRow : Obligations.EveryRequestMatchesOneRow := by
  intro w
  obtain ⟨row, mem, mnemonic, kind, width, rowMatch, -⟩ := encodesAsTable (decode w)
  rw [encode_decode] at rowMatch
  exact ⟨row, mem, rowMatch, mnemonic, kind, width,
    fun other otherMem otherMatch => eq_of_rowMatches otherMem mem otherMatch rowMatch⟩

end Sys2Proof
end

section
/-!
The decoders take different indices to different cells. Morton: every index bit is a bit of one
coordinate (40_morton.md R75). Hilbert: each level leaves its two contribution bits in the pair
(41_hilbert.md R101), and over a table whose orientations send the four groups to four quadrants they
tell the group.
-/

namespace Sys2Proof.Machine

theorem mortonDecode_injective {W : Nat} (valid : validWidth W = true) :
    Function.Injective (mortonDecode W) := by
  obtain ⟨-, H, rfl⟩ := (validWidth_iff W).mp valid
  intro a b same
  apply BitVec.eq_of_getLsbD_eq
  intro j below
  have sameX := congrArg (fun c => c.x.getLsbD (j / 2)) same
  have sameY := congrArg (fun c => c.y.getLsbD (j / 2)) same
  have half : j / 2 < 2 * H / 2 := by omega
  simp only [mortonDecode, getLsbD_ofBits, half, decide_true, Bool.true_and] at sameX sameY
  rcases Nat.mod_two_eq_zero_or_one j with even | odd
  · rwa [show 2 * (j / 2) = j by omega] at sameX
  · rwa [show 2 * (j / 2) + 1 = j by omega] at sameY

/-- The groups of all levels are the whole index (41_hilbert.md R100). -/
theorem eq_of_groupAt_eq {W : Nat} (valid : validWidth W = true) {a b : BitVec W}
    (same : ∀ l < W / 2, groupAt W a l = groupAt W b l) : a = b := by
  obtain ⟨-, H, rfl⟩ := (validWidth_iff W).mp valid
  apply BitVec.eq_of_getLsbD_eq
  intro j below
  have sameBit := congrArg (fun g => g.getLsbD (j % 2)) (same (H - 1 - j / 2) (by omega))
  have place : 2 * H - 2 - 2 * (H - 1 - j / 2) + j % 2 = j := by omega
  have low : j % 2 < 2 := Nat.mod_lt j two_pos
  simpa only [getLsbD_groupAt, place, low, decide_true, Bool.true_and] using sameBit

theorem getLsbD_scaledBit {H l : Nat} (d : Bool) (j : Nat) (level : l < H) :
    (scaledBit H l d).getLsbD j = (decide (j = H - 1 - l) && d) := by
  by_cases here : j = H - 1 - l
  · have inside : H - 1 - l < H := by omega
    simp [scaledBit, here, inside]
  · simp [scaledBit, BitVec.getLsbD_shiftLeft, here]
    omega

section Walk

variable (W : Nat) (entry : Orientation → Group → LutEntry) (index : BitVec W)

@[simp] theorem runLevels_level (n : Nat) :
    (runLevels W entry index n (hilbertStart W)).level = n := by
  induction n with
  | zero => rfl
  | succ n ih => rw [runLevels_succ_last, levelStep_level, ih]

/-- The entry that the walk reads at level `l`. -/
def entryAt (l : Nat) : LutEntry :=
  entry (runLevels W entry index l (hilbertStart W)).orientation (groupAt W index l)

/-- After `n` levels the accumulators hold the contribution bits of those levels and of no other
(41_hilbert.md R101). -/
theorem getLsbD_runLevels {n l : Nat} (levels : n ≤ W / 2) (level : l < W / 2) :
    (runLevels W entry index n (hilbertStart W)).x.getLsbD (W / 2 - 1 - l) =
        (decide (l < n) && (entryAt W entry index l).dx) ∧
      (runLevels W entry index n (hilbertStart W)).y.getLsbD (W / 2 - 1 - l) =
        (decide (l < n) && (entryAt W entry index l).dy) := by
  induction n with
  | zero => simp [runLevels]
  | succ n ih =>
    obtain ⟨ihX, ihY⟩ := ih (by omega)
    simp only [runLevels_succ_last, levelStep_x, levelStep_y, runLevels_level,
      BitVec.getLsbD_or, getLsbD_scaledBit _ _ (show n < W / 2 by omega), ihX, ihY]
    rcases lt_trichotomy l n with earlier | rfl | later
    · simp [show l < n + 1 by omega, earlier, show ¬ W / 2 - 1 - l = W / 2 - 1 - n by omega]
    · simp [entryAt]
    · simp [show ¬ l < n + 1 by omega, show ¬ l < n by omega,
        show ¬ W / 2 - 1 - l = W / 2 - 1 - n by omega]

/-- The decoded pair shows the contribution bits of every level. -/
theorem getLsbD_hilbertDecodeBy {l : Nat} (level : l < W / 2) :
    (hilbertDecodeBy W entry index).x.getLsbD (W / 2 - 1 - l) = (entryAt W entry index l).dx ∧
      (hilbertDecodeBy W entry index).y.getLsbD (W / 2 - 1 - l) =
        (entryAt W entry index l).dy := by
  have held := getLsbD_runLevels W entry index le_rfl level
  simp only [level, decide_true, Bool.true_and] at held
  exact held

end Walk

section Distinct

variable {W : Nat} {entry : Orientation → Group → LutEntry}

theorem hilbertDecodeBy_injective
    (distinct : ∀ o, Function.Injective fun g => ((entry o g).dx, (entry o g).dy))
    (valid : validWidth W = true) : Function.Injective (hilbertDecodeBy W entry) := by
  intro a b same
  have sameGroup (l : Nat) (level : l < W / 2)
      (sameOrientation : (runLevels W entry a l (hilbertStart W)).orientation =
        (runLevels W entry b l (hilbertStart W)).orientation) :
      groupAt W a l = groupAt W b l := by
    obtain ⟨dxA, dyA⟩ := getLsbD_hilbertDecodeBy W entry a level
    obtain ⟨dxB, dyB⟩ := getLsbD_hilbertDecodeBy W entry b level
    rw [same] at dxA dyA
    apply distinct (runLevels W entry a l (hilbertStart W)).orientation
    refine Prod.ext (dxA.symm.trans (dxB.trans ?_)) (dyA.symm.trans (dyB.trans ?_)) <;>
      rw [entryAt, sameOrientation]
  have sameOrientation (n : Nat) (levels : n ≤ W / 2) :
      (runLevels W entry a n (hilbertStart W)).orientation =
        (runLevels W entry b n (hilbertStart W)).orientation := by
    induction n with
    | zero => rfl
    | succ n ih =>
      have before := ih (by omega)
      simp only [runLevels_succ_last, levelStep_orientation, runLevels_level, before,
        sameGroup n levels before]
  exact eq_of_groupAt_eq valid fun l level => sameGroup l level (sameOrientation l level.le)

end Distinct

/-- Under each orientation the table of 41_hilbert.md R99 sends the four groups to four quadrants. -/
theorem lutRead_hilbertLut_quadrant_injective (o : Orientation) :
    Function.Injective fun g => ((lutRead hilbertLut o g).dx, (lutRead hilbertLut o g).dy) := by
  cases o <;> decide

theorem hilbertDecode_injective {W : Nat} (valid : validWidth W = true) :
    Function.Injective (hilbertDecode W) :=
  hilbertDecodeBy_injective lutRead_hilbertLut_quadrant_injective valid

end Sys2Proof.Machine
end

section
/-!
The pair of one request: which decoder a code selects, which index bits it reads (30_encoding.md R59),
and its place on the 32-bit ports (R60).
-/

namespace Sys2Proof.Machine

/-- The decoder that a kind selects (30_encoding.md R57). -/
def decodeBy (kind : CurveKind) (W : Nat) (index : BitVec W) : Coords (W / 2) :=
  match kind with
  | .morton => mortonDecode W index
  | .hilbert => hilbertDecode W index

theorem sfcDecodeUnit_eq_placeResult (op : OpCode) (index : IndexPort) :
    sfcDecodeUnit op index =
      placeResult (decodeBy (kindOfOp op) (widthOfOp op) (operand (widthOfOp op) index)) := by
  rw [sfcDecodeUnit, sfcDecodeUnitBy]
  cases kindOfOp op <;> rfl

theorem resultOf_eq_placeResult (i : Instr) :
    resultOf i = placeResult (decodeBy i.kind i.width (operand i.width i.index)) := by
  cases i <;> rfl

theorem decodeBy_injective {W : Nat} (kind : CurveKind) (valid : validWidth W = true) :
    Function.Injective (decodeBy kind W) := by
  cases kind with
  | morton => exact mortonDecode_injective valid
  | hilbert => exact hilbertDecode_injective valid

theorem muxUnit_eq_sfcDecodeUnit (op : OpCode) (index : IndexPort) :
    muxUnit op index = sfcDecodeUnit op index := by
  rcases opCode_cases op with rfl | rfl | rfl | rfl | rfl | rfl | rfl | rfl <;> rfl

theorem operand_congr {W : Nat} {a b : IndexPort}
    (agree : ∀ j < W, a.getLsbD j = b.getLsbD j) : operand W a = operand W b := by
  apply BitVec.eq_of_getLsbD_eq
  intro j below
  rw [getLsbD_operand, getLsbD_operand, agree j below]

theorem operand_64 (index : IndexPort) : operand 64 index = index := BitVec.setWidth_eq index

theorem toNat_placeResult {H : Nat} (fits : H ≤ 32) (c : Coords H) :
    (placeResult c).x.toNat = c.x.toNat ∧ (placeResult c).y.toNat = c.y.toNat :=
  ⟨BitVec.toNat_setWidth_of_le fits, BitVec.toNat_setWidth_of_le fits⟩

theorem placeResult_injective {H : Nat} (fits : H ≤ 32) :
    Function.Injective (placeResult (H := H)) := by
  intro c d same
  obtain ⟨cx, cy⟩ := toNat_placeResult fits c
  obtain ⟨dx, dy⟩ := toNat_placeResult fits d
  rw [same] at cx cy
  cases c
  cases d
  congr
  · exact BitVec.eq_of_toNat_eq (cx.symm.trans dx)
  · exact BitVec.eq_of_toNat_eq (cy.symm.trans dy)

theorem getLsbD_placeResult_of_le {H j : Nat} (c : Coords H) (above : H ≤ j) :
    (placeResult c).x.getLsbD j = false ∧ (placeResult c).y.getLsbD j = false := by
  simp [BitVec.getLsbD_setWidth, above]

theorem half_width_le (i : Instr) : i.width / 2 ≤ 32 := by
  cases i <;> simp [Instr.width]

/-- At W = 64 no two index ports give the same pair (30_encoding.md R59, no ignored bit). -/
theorem sfcDecodeUnit_injective {op : OpCode} (full : widthOfOp op = 64) :
    Function.Injective (sfcDecodeUnit op) := by
  intro a b same
  rw [sfcDecodeUnit_eq_placeResult, sfcDecodeUnit_eq_placeResult, full] at same
  have sameOperand := decodeBy_injective (kindOfOp op) (by decide)
    (placeResult_injective (by decide) same)
  rwa [operand_64, operand_64] at sameOperand

theorem outputsOf_of_exec_decodeOp {op : OpCode} {index : IndexPort} {s t : State}
    (ran : exec (decodeOp op index) s = .next t) : outputsOf t = sfcDecodeUnit op index :=
  (outputsOf_of_exec ran).trans (resultOf_decodeOp op index)

end Sys2Proof.Machine
end

section
/-! The statements of 30_encoding.md about one request's answer (R59 to R61, R67). -/

namespace Sys2Proof

open Machine

/-- Settles O7: what the ports select is by definition the decoded request, and a step only takes a
result. -/
theorem stepRunsTheDecodedInstr : Obligations.StepRunsTheDecodedInstr := by
  rintro s i decoded -
  refine ⟨congrArg (exec · s) decoded, fun t stepped => ?_⟩
  rw [step_eq, Host.Outcome.next.injEq] at stepped
  rw [← stepped]
  exact ⟨rfl, rfl⟩

/-- Settles O17: the pair that a step receives is the unit's function, which its two branches and the
multiplexer both say. -/
theorem unitPseudocode : Obligations.UnitPseudocode := by
  intro s W idx
  refine ⟨_, step_eq s, ⟨rfl, rfl⟩, ?pseudocode, (muxUnit_eq_sfcDecodeUnit s.op s.index).symm⟩
  rw [outputsOf_takeResult, outputsOf, sfcDecodeUnit_eq_placeResult, kindOfOp]
  cases s.op.getLsbD 2 <;> rfl

/-- Settles O28. -/
theorem unitEqualsComponent : Obligations.UnitEqualsComponent := by
  intro op index
  have valid := validWidth_widthOfOp op
  have unit := sfcDecodeUnit_eq_placeResult op index
  cases kind : kindOfOp op with
  | morton =>
    rw [kind] at unit
    exact ⟨_, mortonDecoder_eq_ok_iff.mpr ⟨valid, rfl⟩, unit⟩
  | hilbert =>
    rw [kind] at unit
    exact ⟨_, hilbertDecoder_eq_ok_iff.mpr ⟨valid, rfl⟩, unit⟩

/-- Settles O21: H is at most 32, so placing a coordinate changes no number and sets no bit from H
up. -/
theorem resultsAreZeroExtended : Obligations.ResultsAreZeroExtended := by
  intro i s t ran c
  have outputs : outputsOf t = placeResult c :=
    (outputsOf_of_exec ran).trans (resultOf_eq_placeResult i)
  rw [State.xOut, State.yOut, outputs]
  obtain ⟨x, y⟩ := toNat_placeResult (half_width_le i) c
  exact ⟨x, y, fun j above => getLsbD_placeResult_of_le c above⟩

/-- Settles O20: the pair reads the index through the operand alone, and at W = 64 the operand is the
port and both decoders are injective. -/
theorem ignoredBitsHaveNoEffect : Obligations.IgnoredBitsHaveNoEffect := by
  refine ⟨fun op a b s agree => ?agreeing, fun W index => BitVec.toNat_setWidth .., operand_64,
    fun kind a b s t u ranA ranB same => ?full⟩
  case agreeing =>
    refine ⟨_, _, exec_eq _ s, exec_eq _ s, ?_⟩
    rw [outputsOf_of_exec_decodeOp (exec_eq _ s), outputsOf_of_exec_decodeOp (exec_eq _ s),
      sfcDecodeUnit_eq_placeResult, sfcDecodeUnit_eq_placeResult, operand_congr agree]
  case full =>
    have full : widthOfOp (if kind then 0b111#3 else 0b011#3) = 64 := by cases kind <;> rfl
    apply sfcDecodeUnit_injective full
    rw [← outputsOf_of_exec_decodeOp ranA, ← outputsOf_of_exec_decodeOp ranB, same]

end Sys2Proof
end

section
/-!
What the assembler answers to a line whose literals are numbers (30_encoding.md R65, R66), and when.
-/

namespace Sys2Proof

theorem instanceWidth_iff (W : Nat) :
    instanceWidth W = true ↔ W = 8 ∨ W = 16 ∨ W = 32 ∨ W = 64 := by
  simp [instanceWidth, instanceWidths]

theorem instanceWidth_width (i : Instr) : instanceWidth i.width = true := by
  cases i <;> rfl

/-- The number of a request (30_encoding.md R56). -/
theorem toNat_encode (i : Instr) :
    (encode i).toNat = (encodeOp i).toNat * 2 ^ 64 + i.index.toNat := by
  rw [encode, BitVec.toNat_append, ← Nat.shiftLeft_add_eq_or_of_lt i.index.isLt, Nat.shiftLeft_eq]

namespace Machine

theorem instrOf_self (i : Instr) : instrOf i.kind i.width i.index = some i := by
  cases i <;> rfl

theorem instrOf_of_supported {W : Nat} (kind : CurveKind) (index : IndexPort)
    (supported : instanceWidth W = true) :
    ∃ i, instrOf kind W index = some i ∧ i.kind = kind ∧ i.width = W ∧ i.index = index := by
  rcases (instanceWidth_iff W).mp supported with rfl | rfl | rfl | rfl <;> cases kind <;>
    exact ⟨_, rfl, rfl, rfl, rfl⟩

theorem instrOf_of_unsupported {W : Nat} (kind : CurveKind) (index : IndexPort)
    (unsupported : ¬ instanceWidth W = true) : instrOf kind W index = none := by
  simp only [instanceWidth_iff, not_or] at unsupported
  cases kind <;> simp [instrOf, unsupported]

theorem instrOf_eq_some_iff (kind : CurveKind) (W : Nat) (index : IndexPort) (i : Instr) :
    instrOf kind W index = some i ↔ i.kind = kind ∧ i.width = W ∧ i.index = index := by
  constructor
  · intro found
    by_cases supported : instanceWidth W = true
    · obtain ⟨j, foundJ, fields⟩ := instrOf_of_supported kind index supported
      obtain rfl : j = i := Option.some.inj (foundJ.symm.trans found)
      exact fields
    · exact nomatch (instrOf_of_unsupported kind index supported).symm.trans found
  · rintro ⟨rfl, rfl, rfl⟩
    exact instrOf_self i

theorem assembleLine_request_eq_ok_iff (kind : CurveKind) (W n : Nat) (i : Instr) :
    assembleLine (.request kind W n) = .ok i ↔
      instrOf kind W (BitVec.ofNat 64 n) = some i ∧ n < 2 ^ W := by
  rw [assembleLine]
  cases instrOf kind W (BitVec.ofNat 64 n) with
  | none => simp
  | some j => by_cases fits : n < 2 ^ W <;> simp [fits]

theorem assembleLine_request_of_le {W n : Nat} (kind : CurveKind)
    (supported : instanceWidth W = true) (wide : 2 ^ W ≤ n) :
    assembleLine (.request kind W n) = .error (.literalTooLarge W n) := by
  obtain ⟨i, found, -⟩ := instrOf_of_supported kind (BitVec.ofNat 64 n) supported
  simp only [assembleLine, found, wide.not_gt, if_false]

theorem assembleLine_raw_eq_ok_iff (op n : Nat) (i : Instr) :
    assembleLine (.raw op n) = .ok i ↔
      op < 2 ^ 3 ∧ n < 2 ^ 64 ∧ decodeOp (BitVec.ofNat 3 op) (BitVec.ofNat 64 n) = i := by
  rw [assembleLine]
  split_ifs with code literal
  · exact ⟨fun same => ⟨code, literal, Except.ok.inj same⟩, fun ⟨_, _, same⟩ => congrArg _ same⟩
  · exact ⟨nofun, fun ⟨_, fits, _⟩ => absurd fits literal⟩
  · exact ⟨nofun, fun ⟨fits, _⟩ => absurd fits code⟩

/-- A line is accepted exactly when it is well-formed (30_encoding.md R65, R66). -/
theorem exists_assembleLine_iff (line : SourceLine) :
    (∃ i, assembleLine line = .ok i) ↔ line.wellFormed = true := by
  cases line with
  | request kind W n =>
    simp only [assembleLine_request_eq_ok_iff, SourceLine.wellFormed, Bool.and_eq_true,
      decide_eq_true_eq, exists_and_right, and_congr_left_iff]
    refine fun _ => ⟨fun ⟨i, found⟩ => ?_, fun supported => ?_⟩
    · obtain ⟨-, rfl, -⟩ := (instrOf_eq_some_iff ..).mp found
      exact instanceWidth_width i
    · obtain ⟨i, found, -⟩ := instrOf_of_supported kind (BitVec.ofNat 64 n) supported
      exact ⟨i, found⟩
  | raw op n =>
    simp [assembleLine_raw_eq_ok_iff, SourceLine.wellFormed]

theorem toNat_ofNat_of_lt_two_pow {W n : Nat} (supported : instanceWidth W = true)
    (fits : n < 2 ^ W) : (BitVec.ofNat 64 n).toNat = n := by
  have widest : W ≤ 64 := by
    have widths := (instanceWidth_iff W).mp supported
    omega
  exact Nat.mod_eq_of_lt (fits.trans_le (Nat.pow_le_pow_right two_pos widest))

end Machine

open Machine

/-- Settles O54: a width has an operation exactly when it is supported, and a literal that fits is the
number of its own bits. -/
theorem assemblerRefusesWideLiterals : Obligations.AssemblerRefusesWideLiterals := by
  refine ⟨exists_assembleLine_iff, fun kind W n i accepted => ?request,
    fun kind W n => assembleLine_request_of_le kind, fun op n i accepted => ?raw⟩
  case request =>
    obtain ⟨found, fits⟩ := (assembleLine_request_eq_ok_iff ..).mp accepted
    obtain ⟨rfl, rfl, index⟩ := (instrOf_eq_some_iff ..).mp found
    have value : i.index.toNat = n := by
      rw [index, toNat_ofNat_of_lt_two_pow (instanceWidth_width i) fits]
    refine ⟨rfl, rfl, value, ?_⟩
    rw [Instr.canonical, value, decide_eq_true fits]
  case raw =>
    obtain ⟨code, literal, rfl⟩ := (assembleLine_raw_eq_ok_iff ..).mp accepted
    rw [toNat_encode, encodeOp_decodeOp, index_decodeOp, BitVec.toNat_ofNat, BitVec.toNat_ofNat,
      Nat.mod_eq_of_lt code, Nat.mod_eq_of_lt literal]

end Sys2Proof
end

section
/-!
Reading back what is written (30_encoding.md R65, R66, log 10, log 11): a text splits at its separators
into the parts that it was put together from, and a literal's digits are read as its number.
-/

namespace Sys2Proof.Machine

section Split

variable {sep : Char}

theorem splitAtChar_eq_singleton {part : List Char} (free : sep ∉ part) :
    splitAtChar sep part = [part] := by
  induction part with
  | nil => rfl
  | cons c cs ih =>
    obtain ⟨head, tail⟩ := not_or.mp (free ∘ List.mem_cons.mpr)
    rw [splitAtChar, if_neg (Ne.symm head), ih tail]

theorem splitAtChar_append_cons {part : List Char} (free : sep ∉ part) (rest : List Char) :
    splitAtChar sep (part ++ sep :: rest) = part :: splitAtChar sep rest := by
  induction part with
  | nil => simp [splitAtChar]
  | cons c cs ih =>
    obtain ⟨head, tail⟩ := not_or.mp (free ∘ List.mem_cons.mpr)
    rw [List.cons_append, splitAtChar, if_neg (Ne.symm head), ih tail]

end Split

theorem digitValue_hexDigit : ∀ d < 16, digitValue (hexDigit d) = some d := by decide

theorem hexDigit_ne_separator : ∀ d < 16, hexDigit d ≠ '_' ∧ hexDigit d ≠ ' ' := by decide

theorem readDigits_hexDigit_cons {d : Nat} (digit : d < 16) (acc : Nat) (afterDigit : Bool)
    (rest : List Char) :
    readDigits 16 acc afterDigit (hexDigit d :: rest) = readDigits 16 (acc * 16 + d) true rest := by
  simp [readDigits, (hexDigit_ne_separator d digit).1, digitValue_hexDigit d digit, digit]

/-- Written digits are read into the accumulator, for any text after them. -/
theorem readDigits_hexDigits_append (k n acc : Nat) (afterDigit : Bool) (rest : List Char) :
    readDigits 16 acc afterDigit (hexDigits k n ++ rest) =
      readDigits 16 (acc * 16 ^ k + n % 16 ^ k) (afterDigit || decide (0 < k)) rest := by
  induction k generalizing n rest with
  | zero => simp [hexDigits, Nat.mod_one]
  | succ k ih =>
    have digit : n % 16 < 16 := Nat.mod_lt n (by decide)
    have value : (acc * 16 ^ k + n / 16 % 16 ^ k) * 16 + n % 16 =
        acc * 16 ^ (k + 1) + n % 16 ^ (k + 1) := by
      rw [pow_succ', Nat.mod_mul]
      ring
    rw [hexDigits, List.append_assoc, List.singleton_append, ih,
      readDigits_hexDigit_cons digit, value]
    simp

theorem readLiteral_hexLiteral {k n : Nat} (digits : 0 < k) (fits : n < 16 ^ k) :
    readLiteral (hexLiteral k n) = some n := by
  have read := readDigits_hexDigits_append k n 0 false []
  rw [List.append_nil, zero_mul, zero_add, Nat.mod_eq_of_lt fits] at read
  rw [hexLiteral, readLiteral, read]
  simp [readDigits, digits]

theorem space_not_mem_hexDigits (k n : Nat) : ' ' ∉ hexDigits k n := by
  induction k generalizing n with
  | zero => simp [hexDigits]
  | succ k ih =>
    have other := (hexDigit_ne_separator (n % 16) (Nat.mod_lt n (by decide))).2
    simp [hexDigits, ih, other.symm]

theorem space_not_mem_hexLiteral (k n : Nat) : ' ' ∉ hexLiteral k n := by
  simp [hexLiteral, space_not_mem_hexDigits]

theorem readKind_kindChars (kind : CurveKind) : readKind (kindChars kind) = some kind := by
  cases kind <;> decide

theorem readWidth_widthChars {W : Nat} (supported : instanceWidth W = true) :
    readWidth (widthChars W) = some W := by
  rcases (instanceWidth_iff W).mp supported with rfl | rfl | rfl | rfl <;> decide

/-- The part of a request line before the space (30_encoding.md R65). -/
def mnemonicChars (kind : CurveKind) (W : Nat) : List Char :=
  kindChars kind ++ '.' :: (decodeChars ++ '.' :: widthChars W)

theorem space_not_mem_mnemonicChars (kind : CurveKind) (W : Nat) :
    ' ' ∉ mnemonicChars kind W := by
  unfold mnemonicChars widthChars
  cases kind <;> split_ifs <;> decide

theorem splitAtChar_mnemonicChars (kind : CurveKind) (W : Nat) :
    splitAtChar '.' (mnemonicChars kind W) = [kindChars kind, decodeChars, widthChars W] := by
  unfold mnemonicChars widthChars
  cases kind <;> split_ifs <;> decide

theorem writeLine_request (kind : CurveKind) (W n : Nat) :
    writeLine (.request kind W n) = mnemonicChars kind W ++ ' ' :: hexLiteral (W / 4) n := by
  simp [writeLine, mnemonicChars]

/-- The code of a raw request (30_encoding.md R66). -/
def codeChars (op : Nat) : List Char :=
  ['0', 'b', bitChar (op.testBit 2), bitChar (op.testBit 1), bitChar (op.testBit 0)]

theorem space_not_mem_codeChars (op : Nat) : ' ' ∉ codeChars op := by
  unfold codeChars
  cases op.testBit 2 <;> cases op.testBit 1 <;> cases op.testBit 0 <;> decide

theorem writeLine_raw (op n : Nat) :
    writeLine (.raw op n) = rawChars ++ ' ' :: (codeChars op ++ ' ' :: hexLiteral 16 n) := rfl

theorem readLine_writeLine_request {W n : Nat} (kind : CurveKind)
    (supported : instanceWidth W = true) (fits : n < 2 ^ W) :
    readLine (writeLine (.request kind W n)) = some (.request kind W n) := by
  have widths := (instanceWidth_iff W).mp supported
  have digits : 16 ^ (W / 4) = 2 ^ W := by
    rw [show 16 = 2 ^ 4 by rfl, ← pow_mul, show 4 * (W / 4) = W by omega]
  have literal := readLiteral_hexLiteral (k := W / 4) (by omega) (fits.trans_eq digits.symm)
  have parts : splitAtChar ' ' (writeLine (.request kind W n)) =
      [mnemonicChars kind W, hexLiteral (W / 4) n] := by
    rw [writeLine_request, splitAtChar_append_cons (space_not_mem_mnemonicChars kind W),
      splitAtChar_eq_singleton (space_not_mem_hexLiteral _ n)]
  simp [readLine, parts, splitAtChar_mnemonicChars, readKind_kindChars,
    readWidth_widthChars supported, literal]

theorem readLine_writeLine_raw {op n : Nat} (code : op < 2 ^ 3) (fits : n < 2 ^ 64) :
    readLine (writeLine (.raw op n)) = some (.raw op n) := by
  have literal : readLiteral (hexLiteral 16 n) = some n :=
    readLiteral_hexLiteral (by decide) (fits.trans_eq (by decide))
  have digits : readBinary3 (codeChars op) = some op :=
    (readBinary3_eq_some_iff _ op).mpr ⟨code, rfl⟩
  have parts : splitAtChar ' ' (writeLine (.raw op n)) =
      [rawChars, codeChars op, hexLiteral 16 n] := by
    rw [writeLine_raw, splitAtChar_append_cons (by decide),
      splitAtChar_append_cons (space_not_mem_codeChars op),
      splitAtChar_eq_singleton (space_not_mem_hexLiteral 16 n)]
  simp [readLine, parts, digits, literal]

end Sys2Proof.Machine

namespace Sys2Proof

open Machine

/-- Settles O55, one case for each form of a line. -/
theorem writtenLinesAreReadBack : Obligations.WrittenLinesAreReadBack := by
  intro line wellFormed
  cases line with
  | request kind W n =>
    rw [SourceLine.wellFormed, Bool.and_eq_true, decide_eq_true_eq] at wellFormed
    obtain ⟨supported, fits⟩ := wellFormed
    exact readLine_writeLine_request kind supported fits
  | raw op n =>
    rw [SourceLine.wellFormed, Bool.and_eq_true, decide_eq_true_eq, decide_eq_true_eq] at wellFormed
    obtain ⟨code, fits⟩ := wellFormed
    exact readLine_writeLine_raw code fits

end Sys2Proof
end

section
/-!
Bit selection (40_morton.md R75, R80), bit by bit: at a valid width the bits of the decoded pair are
the even and the odd bits of the index, with no bound on the bit number, and so at every width that
the index fits.
-/

namespace Sys2Proof.Machine

theorem coords_ext_getLsbD {H : Nat} {c d : Coords H}
    (same : ∀ j < H, c.x.getLsbD j = d.x.getLsbD j ∧ c.y.getLsbD j = d.y.getLsbD j) : c = d := by
  cases c
  cases d
  congr
  · exact BitVec.eq_of_getLsbD_eq fun j below => (same j below).left
  · exact BitVec.eq_of_getLsbD_eq fun j below => (same j below).right

/-- Pairs of different widths with the same bits name the same cell. -/
theorem cellOf_eq_of_getLsbD_eq {H H' : Nat} {c : Coords H} {d : Coords H'}
    (same : ∀ j, c.x.getLsbD j = d.x.getLsbD j ∧ c.y.getLsbD j = d.y.getLsbD j) :
    cellOf c = cellOf d := by
  refine Prod.ext (Nat.eq_of_testBit_eq fun j => ?_) (Nat.eq_of_testBit_eq fun j => ?_)
  · rw [cellOf_fst, cellOf_fst, BitVec.testBit_toNat, BitVec.testBit_toNat, (same j).left]
  · rw [cellOf_snd, cellOf_snd, BitVec.testBit_toNat, BitVec.testBit_toNat, (same j).right]

theorem getLsbD_mortonDecode_x (W : Nat) (index : BitVec W) (j : Nat) :
    (mortonDecode W index).x.getLsbD j = (decide (j < W / 2) && index.getLsbD (2 * j)) :=
  getLsbD_ofBits ..

theorem getLsbD_mortonDecode_y (W : Nat) (index : BitVec W) (j : Nat) :
    (mortonDecode W index).y.getLsbD j = (decide (j < W / 2) && index.getLsbD (2 * j + 1)) :=
  getLsbD_ofBits ..

/-- A pair is the decoded index when its bits are: for a concrete index, W/2 comparisons. -/
theorem mortonDecode_eq_iff {W : Nat} {index : BitVec W} {c : Coords (W / 2)} :
    mortonDecode W index = c ↔ ∀ j < W / 2,
      c.x.getLsbD j = index.getLsbD (2 * j) ∧ c.y.getLsbD j = index.getLsbD (2 * j + 1) := by
  constructor
  · rintro rfl j below
    rw [getLsbD_mortonDecode_x, getLsbD_mortonDecode_y]
    simp [below]
  · intro bits
    apply coords_ext_getLsbD
    intro j below
    obtain ⟨x, y⟩ := bits j below
    rw [getLsbD_mortonDecode_x, getLsbD_mortonDecode_y, x, y]
    simp [below]

section Valid

variable {W : Nat} (valid : validWidth W = true)

include valid

theorem getLsbD_mortonDecode (index : BitVec W) (j : Nat) :
    (mortonDecode W index).x.getLsbD j = index.getLsbD (2 * j) ∧
      (mortonDecode W index).y.getLsbD j = index.getLsbD (2 * j + 1) := by
  obtain ⟨-, H, rfl⟩ := (validWidth_iff W).mp valid
  rw [getLsbD_mortonDecode_x, getLsbD_mortonDecode_y, Bool.and_eq_right_iff_imp,
    Bool.and_eq_right_iff_imp, decide_eq_true_iff]
  refine ⟨fun even => ?_, fun odd => ?_⟩
  · have below := BitVec.lt_of_getLsbD even
    omega
  · have below := BitVec.lt_of_getLsbD odd
    omega

theorem getLsbD_mortonInterleave (c : Coords (W / 2)) (j : Nat) :
    (mortonInterleave W c).getLsbD (2 * j) = c.x.getLsbD j ∧
      (mortonInterleave W c).getLsbD (2 * j + 1) = c.y.getLsbD j := by
  obtain ⟨-, H, rfl⟩ := (validWidth_iff W).mp valid
  rw [mortonInterleave, getLsbD_ofBits, getLsbD_ofBits]
  have oddHalf : (2 * j + 1) / 2 = j := by omega
  by_cases below : j < H
  · simp [oddHalf, below, show 2 * j + 1 < 2 * H by omega]
  · simp [BitVec.getLsbD_of_ge, below, show ¬ 2 * j + 1 < 2 * H by omega,
      show H ≤ j by omega]

theorem mortonDecode_mortonInterleave :
    Function.LeftInverse (mortonDecode W) (mortonInterleave W) := by
  intro c
  apply coords_ext_getLsbD
  intro j _
  obtain ⟨decodedX, decodedY⟩ := getLsbD_mortonDecode valid (mortonInterleave W c) j
  obtain ⟨even, odd⟩ := getLsbD_mortonInterleave valid c j
  exact ⟨decodedX.trans even, decodedY.trans odd⟩

theorem mortonInterleave_mortonDecode :
    Function.LeftInverse (mortonInterleave W) (mortonDecode W) :=
  (mortonDecode_mortonInterleave valid).rightInverse_of_injective (mortonDecode_injective valid)

/-- Zero-extending an index to another valid width moves no cell (40_morton.md R79, R80). -/
theorem cellOf_mortonDecode_setWidth {W' : Nat} (valid' : validWidth W' = true) (wider : W ≤ W')
    (index : BitVec W) :
    cellOf (mortonDecode W' (index.setWidth W')) = cellOf (mortonDecode W index) := by
  have kept (j : Nat) : (index.setWidth W').getLsbD j = index.getLsbD j := by
    rw [BitVec.getLsbD_setWidth, Bool.and_eq_right_iff_imp, decide_eq_true_iff]
    exact fun set => (BitVec.lt_of_getLsbD set).trans_le wider
  apply cellOf_eq_of_getLsbD_eq
  intro j
  simp only [getLsbD_mortonDecode valid', getLsbD_mortonDecode valid, kept, and_self]

end Valid

theorem mortonDecode_allOnes {W : Nat} (valid : validWidth W = true) :
    mortonDecode W (BitVec.allOnes W) = ⟨BitVec.allOnes (W / 2), BitVec.allOnes (W / 2)⟩ := by
  obtain ⟨-, H, rfl⟩ := (validWidth_iff W).mp valid
  apply mortonDecode_eq_iff.mpr
  intro j below
  simp [show j < H by omega, show 2 * j + 1 < 2 * H by omega]

end Sys2Proof.Machine

namespace Sys2Proof

open Machine

/-- Settles O30, whose bound on i is not needed: both sides are 0 from there on. -/
theorem mortonBitEquations : Obligations.MortonBitEquations :=
  fun _ index valid i _ => getLsbD_mortonDecode valid index i

/-- Settles O37: each coordinate is told by its bits, and they are those of one parity. -/
theorem mortonIsSeparable : Obligations.MortonIsSeparable := by
  intro W a b valid
  have bitsA := getLsbD_mortonDecode valid a
  have bitsB := getLsbD_mortonDecode valid b
  refine ⟨fun sameEven => ?x, fun sameOdd => ?y⟩
  case x =>
    apply BitVec.eq_of_getLsbD_eq
    intro j _
    rw [(bitsA j).left, (bitsB j).left, sameEven j]
  case y =>
    apply BitVec.eq_of_getLsbD_eq
    intro j _
    rw [(bitsA j).right, (bitsB j).right, sameOdd j]

/-- Settles O34: decoding an interleaved pair gives it back, and decoding is injective, so
interleaving is also the inverse on the other side. -/
theorem mortonIsBijective : Obligations.MortonIsBijective := by
  intro W valid
  have decodeInterleave := mortonDecode_mortonInterleave valid
  exact ⟨⟨mortonDecode_injective valid, decodeInterleave.surjective⟩,
    mortonInterleave_mortonDecode valid, decodeInterleave,
    fun c i _ => getLsbD_mortonInterleave valid c i⟩

/-- Settles O35: the last index has every bit set. -/
theorem mortonCorners : Obligations.MortonCorners := by
  intro W valid
  constructor
  · apply mortonDecode_eq_iff.mpr
    intro j _
    simp
  · have last : BitVec.ofNat W (2 ^ W - 1) = BitVec.allOnes W := by
      rw [← BitVec.toNat_allOnes, BitVec.ofNat_toNat, BitVec.setWidth_eq]
    rw [last, mortonDecode_allOnes valid, cellOf, BitVec.toNat_allOnes]

/-- Settles O36: an index that fits W - 2 bits is the zero-extension of its low W - 2 bits. -/
theorem mortonAgreesAcrossWidths : Obligations.MortonAgreesAcrossWidths := by
  intro W index valid valid' fits
  have extended : (index.setWidth (W - 2)).setWidth W = index := by
    apply BitVec.eq_of_toNat_eq
    rw [BitVec.toNat_setWidth_of_le (Nat.sub_le W 2), BitVec.toNat_setWidth,
      Nat.mod_eq_of_lt fits]
  have sameCell :=
    cellOf_mortonDecode_setWidth valid' valid (Nat.sub_le W 2) (index.setWidth (W - 2))
  rwa [extended] at sameCell

end Sys2Proof
end

section
/-!
The mask algorithm (40_morton.md R76 to R79): the masks, the working value after each step, and the
result, which is bit selection.
-/

namespace Sys2Proof.Machine

/-- Bit k tells the two halves of a block of 2^(k+1). -/
theorem testBit_two_pow_mul_add_of_lt {k r : Nat} (m : Nat) (inBlock : r < 2 ^ (k + 1)) :
    (2 ^ (k + 1) * m + r).testBit k = decide (2 ^ k ≤ r) := by
  rw [Nat.testBit_two_pow_mul_add m inBlock, if_pos k.lt_succ_self]
  by_cases high : 2 ^ k ≤ r
  · rw [decide_eq_true high, Nat.testBit_of_two_pow_le_and_two_pow_add_one_gt high inBlock]
  · rw [decide_eq_false high, Nat.testBit_lt_two_pow (not_le.mp high)]

section Mask

variable {W k : Nat}

theorem getLsbD_mortonMask (W k j : Nat) :
    (mortonMask W k).getLsbD j = (decide (j < W) && !j.testBit k) :=
  getLsbD_ofBits ..

theorem mortonMask_eq_iff {mask : BitVec W} :
    mortonMask W k = mask ↔ ∀ j < W, mask.getLsbD j = !j.testBit k := by
  constructor
  · rintro rfl j below
    rw [getLsbD_mortonMask, decide_eq_true below, Bool.true_and]
  · intro bits
    apply BitVec.eq_of_getLsbD_eq
    intro j below
    rw [getLsbD_mortonMask, decide_eq_true below, Bool.true_and, bits j below]

theorem getLsbD_mortonMask_eq_true_iff {j : Nat} (below : j < W) :
    (mortonMask W k).getLsbD j = true ↔ j.testBit k = false := by
  rw [getLsbD_mortonMask, decide_eq_true below, Bool.true_and, Bool.not_eq_true']

theorem mortonMask_8 : mortonMask 8 0 = 0x55#8 ∧ mortonMask 8 1 = 0x33#8 ∧
    mortonMask 8 2 = 0x0F#8 := by
  simp only [mortonMask_eq_iff]
  decide

theorem mortonMask_16 : mortonMask 16 0 = 0x5555#16 ∧ mortonMask 16 1 = 0x3333#16 ∧
    mortonMask 16 2 = 0x0F0F#16 ∧ mortonMask 16 3 = 0x00FF#16 := by
  simp only [mortonMask_eq_iff]
  decide

theorem mortonMask_32 : mortonMask 32 0 = 0x55555555#32 ∧ mortonMask 32 1 = 0x33333333#32 ∧
    mortonMask 32 2 = 0x0F0F0F0F#32 ∧ mortonMask 32 3 = 0x00FF00FF#32 ∧
    mortonMask 32 4 = 0x0000FFFF#32 := by
  simp only [mortonMask_eq_iff]
  decide

theorem mortonMask_64 : mortonMask 64 0 = 0x5555555555555555#64 ∧
    mortonMask 64 1 = 0x3333333333333333#64 ∧ mortonMask 64 2 = 0x0F0F0F0F0F0F0F0F#64 ∧
    mortonMask 64 3 = 0x00FF00FF00FF00FF#64 ∧ mortonMask 64 4 = 0x0000FFFF0000FFFF#64 ∧
    mortonMask 64 5 = 0x00000000FFFFFFFF#64 := by
  simp only [mortonMask_eq_iff]
  decide

end Mask

section Stages

variable {W : Nat} (v : BitVec W)

theorem getLsbD_compactStages_zero (j : Nat) :
    (compactStages W v 0).getLsbD j = (!j.testBit 0 && v.getLsbD j) := by
  rw [compactStages, BitVec.getLsbD_and, getLsbD_mortonMask]
  by_cases below : j < W
  · simp [below, Bool.and_comm]
  · simp [BitVec.getLsbD_of_ge v j (not_lt.mp below)]

theorem getLsbD_compactStages_succ (k j : Nat) :
    (compactStages W v (k + 1)).getLsbD j =
      (!j.testBit (k + 1) &&
        ((compactStages W v k).getLsbD j || (compactStages W v k).getLsbD (2 ^ k + j))) := by
  rw [compactStages, BitVec.getLsbD_and, BitVec.getLsbD_or, BitVec.getLsbD_ushiftRight,
    getLsbD_mortonMask]
  by_cases below : j < W
  · simp [below, Bool.and_comm]
  · have above : W ≤ j := not_lt.mp below
    simp [BitVec.getLsbD_of_ge, above, le_add_left above]

/-- The invariant of the mask algorithm, at any width: after step k, each block of 2^(k+1) bits
holds in its low half the bits from its even positions, and 0 in its high half. Step k+1 joins two blocks:
the low half of the upper one moves down to the high half of the lower one. -/
theorem getLsbD_compactStages (k : Nat) : ∀ m r, r < 2 ^ (k + 1) →
    (compactStages W v k).getLsbD (2 ^ (k + 1) * m + r) =
      (decide (r < 2 ^ k) && v.getLsbD (2 ^ (k + 1) * m + 2 * r)) := by
  induction k with
  | zero =>
    intro m r inBlock
    rw [getLsbD_compactStages_zero, testBit_two_pow_mul_add_of_lt m inBlock]
    obtain rfl | rfl : r = 0 ∨ r = 1 := by omega
    · simp
    · simp
  | succ k ih =>
    intro m r inBlock
    rw [getLsbD_compactStages_succ, testBit_two_pow_mul_add_of_lt m inBlock]
    rcases lt_or_ge r (2 ^ (k + 1)) with low | high
    case inr => simp [high]
    have lowerBlock : 2 ^ (k + 1 + 1) * m + r = 2 ^ (k + 1) * (2 * m) + r := by ring
    have source : 2 ^ (k + 1 + 1) * m + 2 * r = 2 ^ (k + 1) * (2 * m) + 2 * r := by ring
    rw [lowerBlock, source, ih (2 * m) r low]
    have halves : 2 ^ (k + 1) = 2 ^ k + 2 ^ k := by ring
    rcases lt_or_ge r (2 ^ k) with lower | upper
    · have movedIn : 2 ^ k + (2 ^ (k + 1) * (2 * m) + r) =
          2 ^ (k + 1) * (2 * m) + (2 ^ k + r) := by ring
      rw [movedIn, ih (2 * m) (2 ^ k + r) (by omega)]
      simp [low, lower]
    · obtain ⟨q, rfl⟩ := Nat.exists_eq_add_of_le upper
      have movedIn : 2 ^ k + (2 ^ (k + 1) * (2 * m) + (2 ^ k + q)) =
          2 ^ (k + 1) * (2 * m + 1) + q := by ring
      have sourceUpper : 2 ^ (k + 1) * (2 * m) + 2 * (2 ^ k + q) =
          2 ^ (k + 1) * (2 * m + 1) + 2 * q := by ring
      rw [movedIn, ih (2 * m + 1) q (by omega), sourceUpper]
      simp [low, show q < 2 ^ k by omega]

end Stages

section PowerOfTwo

variable {W K : Nat} (pow : W = 2 ^ K) (positive : 1 ≤ K)

include pow positive

theorem validWidth_of_eq_two_pow : validWidth W = true := by
  obtain ⟨K, rfl⟩ := Nat.exists_eq_add_of_le' positive
  have half : 0 < 2 ^ K := Nat.two_pow_pos K
  exact (validWidth_iff W).mpr ⟨by omega, 2 ^ K, by omega⟩

/-- The result of `Compact_W` is the first run of its last step: all even bits of the value. -/
theorem getLsbD_compact (v : BitVec W) {j : Nat} (below : j < W / 2) :
    (compact W v).getLsbD j = v.getLsbD (2 * j) := by
  obtain ⟨K, rfl⟩ := Nat.exists_eq_add_of_le' positive
  subst pow
  have half : 2 ^ (K + 1) / 2 = 2 ^ K := by omega
  rw [half] at below
  have lastStep := getLsbD_compactStages v K 0 j (by omega)
  rw [compact, Nat.log2_two_pow, BitVec.getLsbD_setWidth, half]
  simpa [below] using lastStep

theorem mortonDecodeMasked_eq_mortonDecode (index : BitVec W) :
    mortonDecodeMasked W index = mortonDecode W index := by
  refine (mortonDecode_eq_iff.mpr fun j below => ⟨?x, ?y⟩).symm
  case x => exact getLsbD_compact pow positive index below
  case y =>
    rw [mortonDecodeMasked, getLsbD_compact pow positive _ below, BitVec.getLsbD_ushiftRight,
      Nat.add_comm]

end PowerOfTwo

end Sys2Proof.Machine

namespace Sys2Proof

open Machine

/-- Settles O33: `Compact_W` selects the even bits, and zero-extending an index moves no cell. -/
theorem maskAlgorithmEqualsBitSelection : Obligations.MaskAlgorithmEqualsBitSelection := by
  refine ⟨fun K index positive => mortonDecodeMasked_eq_mortonDecode rfl positive index,
    fun W K index valid wider => ?zeroExtended⟩
  have positive : 1 ≤ K := by
    obtain ⟨two, -⟩ := (validWidth_iff W).mp valid
    refine Nat.one_le_iff_ne_zero.mpr fun zero => ?_
    rw [zero] at wider
    omega
  rw [mortonDecodeMasked_eq_mortonDecode rfl positive]
  exact cellOf_mortonDecode_setWidth valid (validWidth_of_eq_two_pow rfl positive) wider index

/-- Settles O32: the invariant holds at any width, so at 2^K. -/
theorem compactStageInvariant : Obligations.CompactStageInvariant :=
  fun _ k v _ m r inBlock _ => getLsbD_compactStages v k m r inBlock

/-- Settles O31: the bits of every mask by its definition; for the last mask, bit K tells the
halves. -/
theorem maskConstants : Obligations.MaskConstants := by
  refine ⟨fun K k j _ below => getLsbD_mortonMask_eq_true_iff below, fun K j below => ?lastMask,
    ?table8, ?table16, ?table32, ?table64, ?mask2, ?mask4⟩
  case lastMask =>
    have testBit := testBit_two_pow_mul_add_of_lt 0 below
    rw [Nat.mul_zero, Nat.zero_add] at testBit
    rw [getLsbD_mortonMask_eq_true_iff below, testBit, decide_eq_false_iff_not]
    omega
  case table8 => simp [List.range_succ, mortonMask_8]
  case table16 => simp [List.range_succ, mortonMask_16]
  case table32 => simp [List.range_succ, mortonMask_32]
  case table64 => simp [List.range_succ, mortonMask_64]
  case mask2 => exact mortonMask_eq_iff.mpr (by decide)
  case mask4 =>
    simp only [mortonMask_eq_iff]
    decide

end Sys2Proof
end

section
/-!
The four Morton operations (40_morton.md R81 to R84): one argument for every operation of the Morton
kind, then each with its own masks and examples.
-/

namespace Sys2Proof

theorem width_eq_two_pow (i : Instr) : ∃ K, 1 ≤ K ∧ i.width = 2 ^ K := by
  cases i with
  | mortonDecode8 | hilbertDecode8 => exact ⟨3, by decide, rfl⟩
  | mortonDecode16 | hilbertDecode16 => exact ⟨4, by decide, rfl⟩
  | mortonDecode32 | hilbertDecode32 => exact ⟨5, by decide, rfl⟩
  | mortonDecode64 | hilbertDecode64 => exact ⟨6, by decide, rfl⟩

open Machine

/-- The bits of the index that a Morton operation shows on the ports (30_encoding.md R59, R60). -/
theorem getLsbD_placeResult_mortonDecode {W j : Nat} (fits : W / 2 ≤ 32) (index : IndexPort)
    (below : j < W / 2) :
    (placeResult (mortonDecode W (operand W index))).x.getLsbD j = index.getLsbD (2 * j) ∧
      (placeResult (mortonDecode W (operand W index))).y.getLsbD j =
        index.getLsbD (2 * j + 1) := by
  have port : j < 32 := below.trans_le fits
  have even : 2 * j < W := by omega
  have odd : 2 * j + 1 < W := by omega
  simp only [placeResult_x, placeResult_y, BitVec.getLsbD_setWidth, getLsbD_mortonDecode_x,
    getLsbD_mortonDecode_y, getLsbD_operand, below, port, even, odd, decide_true, Bool.true_and,
    and_self]

/-- Every operation of the Morton kind answers in every state: its pair is the decoded operand, and
the width is a power of two, where the mask algorithm gives the same pair. -/
theorem exec_mortonAnswer {i : Instr} (morton : i.kind = .morton) (s : Machine.State) :
    ∃ t, exec i s = .next t ∧ MortonAnswer i.width i t := by
  obtain ⟨K, positive, pow⟩ := width_eq_two_pow i
  have fits := half_width_le i
  have result : resultOf i = placeResult (mortonDecode i.width (operand i.width i.index)) := by
    rw [resultOf_eq_placeResult, morton, decodeBy]
  have masked := mortonDecodeMasked_eq_mortonDecode pow positive (operand i.width i.index)
  refine ⟨_, exec_eq i s, ?_⟩
  rw [MortonAnswer, State.xOut, State.yOut, outputsOf_of_exec (exec_eq i s), result]
  refine ⟨fun j below => getLsbD_placeResult_mortonDecode fits i.index below,
    fun j above => getLsbD_placeResult_of_le _ above, ?maskX, ?maskY, _,
    mortonDecoder_eq_ok_iff.mpr ⟨validWidth_of_eq_two_pow pow positive, rfl⟩, rfl, rfl⟩
  case maskX => exact congrArg (·.x.setWidth 32) masked.symm
  case maskY => exact congrArg (·.y.setWidth 32) masked.symm

/-- Settles O9: the steps read the masks of the table, and a listed pair is compared bit by bit. -/
theorem mortonDecode8Answers : Obligations.MortonDecode8Answers := by
  refine ⟨fun index s => exec_mortonAnswer rfl s, fun _ => rfl, fun v => ?masks,
    fun p listed => mortonDecode_eq_iff.mpr ?corner, rfl, rfl⟩
  case masks =>
    obtain ⟨m0, m1, m2⟩ := mortonMask_8
    rw [← m0, ← m1, ← m2]
    rfl
  case corner => fin_cases listed <;> decide

/-- Settles O10, as O9 at 16 bits. -/
theorem mortonDecode16Answers : Obligations.MortonDecode16Answers := by
  refine ⟨fun index s => exec_mortonAnswer rfl s, fun _ => rfl, fun v => ?masks,
    fun p listed => mortonDecode_eq_iff.mpr ?corner, rfl, rfl⟩
  case masks =>
    obtain ⟨m0, m1, m2, m3⟩ := mortonMask_16
    rw [← m0, ← m1, ← m2, ← m3]
    rfl
  case corner => fin_cases listed <;> decide

/-- Settles O11, as O9 at 32 bits. -/
theorem mortonDecode32Answers : Obligations.MortonDecode32Answers := by
  refine ⟨fun index s => exec_mortonAnswer rfl s, fun _ => rfl, fun v => ?masks,
    fun p listed => mortonDecode_eq_iff.mpr ?corner, rfl⟩
  case masks =>
    obtain ⟨m0, m1, m2, m3, m4⟩ := mortonMask_32
    rw [← m0, ← m1, ← m2, ← m3, ← m4]
    rfl
  case corner => fin_cases listed <;> decide

/-- Settles O12, as O9 at 64 bits. -/
theorem mortonDecode64Answers : Obligations.MortonDecode64Answers := by
  refine ⟨fun index s => exec_mortonAnswer rfl s, fun _ => rfl, fun v => ?masks,
    fun p listed => mortonDecode_eq_iff.mpr ?corner⟩
  case masks =>
    obtain ⟨m0, m1, m2, m3, m4, m5⟩ := mortonMask_64
    rw [← m0, ← m1, ← m2, ← m3, ← m4, ← m5]
    rfl
  case corner => fin_cases listed <;> decide

end Sys2Proof
end

section
/-!
The orientations (41_hilbert.md R96, R97): composition is XOR on the tags, and an orientation acts
on a square of side 2s as on its quadrant bits and, inside the quadrant, as on a square of side s.
-/

namespace Sys2Proof.Machine

/-- A cell inside the square of a side. -/
def InSquare (side : Nat) (cell : Nat × Nat) : Prop := cell.1 < side ∧ cell.2 < side

/-- The cell that stands at `cell` inside quadrant `q`, the quadrants having side `side`
(41_hilbert.md R98). -/
def placeInQuadrant (side : Nat) (q : Bool × Bool) (cell : Nat × Nat) : Nat × Nat :=
  (side * bitNat q.1 + cell.1, side * bitNat q.2 + cell.2)

section Group

variable (o o1 o2 o3 : Orientation)

@[simp] theorem orientationTag_orientationOfTag (tag : BitVec 2) :
    orientationTag (orientationOfTag tag) = tag := by
  revert tag
  decide

theorem orientationTag_injective : Function.Injective orientationTag :=
  Function.LeftInverse.injective orientationOfTag_orientationTag

@[simp] theorem orientationTag_composeOrientation :
    orientationTag (composeOrientation o1 o2) = orientationTag o1 ^^^ orientationTag o2 :=
  orientationTag_orientationOfTag _

@[simp] theorem composeOrientation_self : composeOrientation o o = .ident :=
  orientationTag_injective <| by
    rw [orientationTag_composeOrientation, BitVec.xor_self]
    rfl

@[simp] theorem ident_composeOrientation : composeOrientation .ident o = o :=
  orientationTag_injective <|
    (orientationTag_composeOrientation .ident o).trans (BitVec.zero_xor ..)

theorem composeOrientation_comm : composeOrientation o1 o2 = composeOrientation o2 o1 :=
  congrArg orientationOfTag (BitVec.xor_comm ..)

theorem composeOrientation_assoc :
    composeOrientation (composeOrientation o1 o2) o3 =
      composeOrientation o1 (composeOrientation o2 o3) := by
  apply orientationTag_injective
  simp only [orientationTag_composeOrientation, BitVec.xor_assoc]

end Group

section Action

variable {side : Nat} {cell : Nat × Nat}

/-- Complementing a coordinate of the square twice gives it back, so composing tags composes the
actions. -/
theorem orientCell_composeOrientation (inside : InSquare side cell) (o1 o2 : Orientation) :
    orientCell (composeOrientation o1 o2) side cell =
      orientCell o1 side (orientCell o2 side cell) := by
  obtain ⟨u, v⟩ := cell
  obtain ⟨left, right⟩ := inside
  have twiceU : side - 1 - (side - 1 - u) = u := Nat.sub_sub_self (Nat.le_sub_one_of_lt left)
  have twiceV : side - 1 - (side - 1 - v) = v := Nat.sub_sub_self (Nat.le_sub_one_of_lt right)
  cases o1 with
  | ident => rw [ident_composeOrientation, orientCell]
  | reflA => cases o2 <;> rfl
  | rot180 | reflB =>
    cases o2 with
    | ident | reflA => rfl
    | rot180 | reflB =>
      simp [composeOrientation, orientationTag, orientationOfTag, orientCell, twiceU, twiceV]

theorem bitNat_le_one (b : Bool) : bitNat b ≤ 1 := by
  cases b <;> decide

theorem bitNat_not (b : Bool) : bitNat (!b) = 1 - bitNat b := by
  cases b <;> rfl

theorem orientCell_two_bitNat (o : Orientation) (q : Bool × Bool) :
    orientCell o 2 (bitNat q.1, bitNat q.2) =
      (bitNat (orientQuadrant o q).1, bitNat (orientQuadrant o q).2) := by
  cases o with
  | ident | reflA => rfl
  | rot180 | reflB => simp only [orientCell, orientQuadrant, bitNat_not]

/-- Complementing a coordinate complements its quadrant bit and its place in the quadrant. -/
theorem complement_quadrant_coordinate {u : Nat} (inside : u < side) (b : Bool) :
    2 * side - 1 - (side * bitNat b + u) = side * bitNat (!b) + (side - 1 - u) := by
  cases b <;> simp only [bitNat, Bool.not_false, Bool.not_true, if_true, Bool.false_eq_true,
    if_false] <;> omega

theorem orientCell_placeInQuadrant (inside : InSquare side cell) (o : Orientation)
    (q : Bool × Bool) :
    orientCell o (2 * side) (placeInQuadrant side q cell) =
      placeInQuadrant side (orientQuadrant o q) (orientCell o side cell) := by
  obtain ⟨left, right⟩ := inside
  cases o with
  | ident | reflA => rfl
  | rot180 | reflB =>
    simp only [placeInQuadrant, orientCell, orientQuadrant,
      complement_quadrant_coordinate left, complement_quadrant_coordinate right]

theorem InSquare.placeInQuadrant (inside : InSquare side cell) (q : Bool × Bool) :
    InSquare (2 * side) (placeInQuadrant side q cell) := by
  obtain ⟨left, right⟩ := inside
  have x := Nat.mul_le_mul_left side (bitNat_le_one q.1)
  have y := Nat.mul_le_mul_left side (bitNat_le_one q.2)
  simp only [InSquare, Machine.placeInQuadrant]
  omega

end Action

end Sys2Proof.Machine

namespace Sys2Proof

open Machine

/-- Settles O38: the laws of XOR, carried over by the tags. -/
theorem orientationsFormAGroup : Obligations.OrientationsFormAGroup :=
  ⟨fun o => ⟨composeOrientation_self o, ident_composeOrientation o⟩,
    fun o1 o2 => ⟨composeOrientation_comm o1 o2, orientationTag_composeOrientation o1 o2⟩,
    composeOrientation_assoc, rfl, rfl, rfl,
    fun o1 o2 _ _ _ left right => orientCell_composeOrientation ⟨left, right⟩ o1 o2⟩

/-- Settles O39. -/
theorem quadrantActionIsSideTwo : Obligations.QuadrantActionIsSideTwo :=
  orientCell_two_bitNat

end Sys2Proof
end

section
/-! The table's entries (41_hilbert.md R99): the convention and the closed form (R104) give them
all. -/

namespace Sys2Proof.Machine

theorem lutRead_hilbertLut (o : Orientation) (g : Group) :
    lutRead hilbertLut o g = conventionEntry o g := by
  revert g
  cases o <;> decide

theorem closedFormEntry_eq_conventionEntry (o : Orientation) (g : Group) :
    closedFormEntry o g = conventionEntry o g := by
  revert g
  cases o <;> decide

theorem closedFormEntry_eq_lutRead : closedFormEntry = lutRead hilbertLut := by
  funext o g
  rw [closedFormEntry_eq_conventionEntry, lutRead_hilbertLut]

/-- A word holds nothing beside its entry. -/
@[simp] theorem packEntry_unpackEntry (w : BitVec 4) : packEntry (unpackEntry w) = w := by
  revert w
  decide

theorem getElem?_lutAddress (lut : LutWords) (o : Orientation) (g : Group) :
    lut[(lutAddress o g).toNat]? = some (packEntry (lutRead lut o g)) := by
  rw [lutRead, packEntry_unpackEntry]
  exact Vector.getElem?_eq_getElem (lutAddress o g).isLt

end Sys2Proof.Machine

namespace Sys2Proof

open Machine

/-- Settles O40. -/
theorem lutHoldsTheConvention : Obligations.LutHoldsTheConvention :=
  ⟨fun o g => ⟨lutRead_hilbertLut o g, getElem?_lutAddress hilbertLut o g⟩, rfl⟩

/-- Settles O41: the walk reads its table through the entries alone. -/
theorem closedFormEqualsTable : Obligations.ClosedFormEqualsTable := by
  refine ⟨fun o g => ?entry, fun W index _ => ?walk⟩
  case entry => rw [closedFormEntry_eq_lutRead]
  case walk => rw [closedFormEntry_eq_lutRead, hilbertDecode]

end Sys2Proof
end

section
/-!
The accumulators as numbers (41_hilbert.md R101): after n levels both are multiples of 2^(H-n), so
the next level's OR is an addition.
-/

namespace Sys2Proof.Machine

/-- OR into bits that are still clear adds. -/
theorem toNat_or_scaledBit {H l : Nat} (a : BitVec H) (d : Bool) (level : l < H)
    (clear : 2 ^ (H - l) ∣ a.toNat) :
    (a ||| scaledBit H l d).toNat = a.toNat + bitNat d * 2 ^ (H - 1 - l) := by
  obtain ⟨high, multiple⟩ := clear
  have half : 2 ^ (H - l) = 2 * 2 ^ (H - 1 - l) := by
    rw [← pow_succ', show H - 1 - l + 1 = H - l by omega]
  have low : bitNat d * 2 ^ (H - 1 - l) < 2 ^ (H - l) := by
    have positive : 0 < 2 ^ (H - 1 - l) := Nat.two_pow_pos _
    have atMost := Nat.mul_le_mul_right (2 ^ (H - 1 - l)) (bitNat_le_one d)
    omega
  rw [BitVec.toNat_or, toNat_scaledBit H l d level, multiple, Nat.two_pow_add_eq_or_of_lt low]

/-- The bits below the level's own stay clear. -/
theorem dvd_toNat_or_scaledBit {H l : Nat} (a : BitVec H) (d : Bool) (level : l < H)
    (clear : 2 ^ (H - l) ∣ a.toNat) :
    2 ^ (H - (l + 1)) ∣ (a ||| scaledBit H l d).toNat := by
  rw [toNat_or_scaledBit a d level clear, show H - (l + 1) = H - 1 - l by omega]
  exact dvd_add ((pow_dvd_pow 2 (by omega)).trans clear) (dvd_mul_left ..)

section Levels

variable (W : Nat) (entry : Orientation → Group → LutEntry) (index : BitVec W) {n : Nat}

theorem dvd_toNat_runLevels (levels : n ≤ W / 2) :
    2 ^ (W / 2 - n) ∣ (runLevels W entry index n (hilbertStart W)).x.toNat ∧
      2 ^ (W / 2 - n) ∣ (runLevels W entry index n (hilbertStart W)).y.toNat := by
  induction n with
  | zero => simp [runLevels]
  | succ n ih =>
    obtain ⟨clearX, clearY⟩ := ih (by omega)
    rw [runLevels_succ_last, levelStep_x, levelStep_y, runLevels_level]
    exact ⟨dvd_toNat_or_scaledBit _ _ levels clearX, dvd_toNat_or_scaledBit _ _ levels clearY⟩

/-- What one more level adds to each accumulator. -/
theorem toNat_runLevels_succ (level : n < W / 2) :
    (runLevels W entry index (n + 1) (hilbertStart W)).x.toNat =
        (runLevels W entry index n (hilbertStart W)).x.toNat +
          bitNat (entryAt W entry index n).dx * 2 ^ (W / 2 - 1 - n) ∧
      (runLevels W entry index (n + 1) (hilbertStart W)).y.toNat =
        (runLevels W entry index n (hilbertStart W)).y.toNat +
          bitNat (entryAt W entry index n).dy * 2 ^ (W / 2 - 1 - n) := by
  obtain ⟨clearX, clearY⟩ := dvd_toNat_runLevels W entry index level.le
  rw [runLevels_succ_last, levelStep_x, levelStep_y, runLevels_level,
    toNat_or_scaledBit _ _ level clearX, toNat_or_scaledBit _ _ level clearY]
  exact ⟨rfl, rfl⟩

theorem orientation_runLevels_succ (n : Nat) :
    (runLevels W entry index (n + 1) (hilbertStart W)).orientation =
      (entryAt W entry index n).next := by
  rw [runLevels_succ_last, levelStep_orientation, runLevels_level, entryAt]

end Levels

end Sys2Proof.Machine

namespace Sys2Proof

open Machine

/-- Settles O42: a multiple of 2^(H-n) has its low H-n bits 0, and level n adds below them. -/
theorem levelsSetDistinctBits : Obligations.LevelsSetDistinctBits := by
  intro W entry index n _ level w e
  obtain ⟨clearX, clearY⟩ := dvd_toNat_runLevels W entry index level.le
  obtain ⟨addedX, addedY⟩ := toNat_runLevels_succ W entry index level
  rw [runLevels_succ_last] at addedX addedY
  exact ⟨runLevels_level W entry index n, Nat.mod_eq_zero_of_dvd clearX,
    Nat.mod_eq_zero_of_dvd clearY, addedX, addedY⟩

end Sys2Proof
end

section
/-!
The recursive curve (41_hilbert.md R98): it reads an index modulo 4^m, the curve of an orientation
is the image of the curve of ID, and the cells of consecutive indices share an edge (R105), because
each quadrant is entered next to the cell where the one before it is left.
-/

namespace Sys2Proof.Machine

theorem two_pow_two_mul (m : Nat) : 2 ^ (2 * m) = 4 ^ m := pow_mul 2 2 m

/-- The group that the curve of a square of side 2^(m+1) reads (41_hilbert.md R98). -/
def curveGroup (m d : Nat) : Group := BitVec.ofNat 2 (d / 4 ^ m)

@[simp] theorem toNat_curveGroup (m d : Nat) : (curveGroup m d).toNat = d / 4 ^ m % 4 :=
  BitVec.toNat_ofNat ..

theorem curveGroup_mod (m d : Nat) : curveGroup m (d % 4 ^ (m + 1)) = curveGroup m d := by
  apply BitVec.eq_of_toNat_eq
  rw [toNat_curveGroup, toNat_curveGroup, pow_succ, Nat.mod_mul_right_div_self, Nat.mod_mod]

/-- The recursion of R98, with the index of the sub-curve not yet reduced. -/
theorem curve_succ_mod (o : Orientation) (m d : Nat) :
    curve o (m + 1) d =
      placeInQuadrant (2 ^ m) (orientQuadrant o (quadrantOfGroup (curveGroup m d)))
        (curve (composeOrientation o (localOrientation (curveGroup m d))) m (d % 4 ^ m)) := by
  have group : BitVec.ofNat 2 (d >>> (2 * m)) = curveGroup m d := by
    rw [curveGroup, Nat.shiftRight_eq_div_pow, two_pow_two_mul]
  rw [curve, group]
  rfl

theorem curve_mod (o : Orientation) (m d : Nat) : curve o m (d % 4 ^ m) = curve o m d := by
  cases m with
  | zero => rfl
  | succ m =>
    have low : d % 4 ^ (m + 1) % 4 ^ m = d % 4 ^ m :=
      Nat.mod_mod_of_dvd d (pow_dvd_pow 4 m.le_succ)
    rw [curve_succ_mod, curve_succ_mod, curveGroup_mod, low]

theorem curve_succ (o : Orientation) (m d : Nat) :
    curve o (m + 1) d =
      placeInQuadrant (2 ^ m) (orientQuadrant o (quadrantOfGroup (curveGroup m d)))
        (curve (composeOrientation o (localOrientation (curveGroup m d))) m d) := by
  rw [curve_succ_mod, curve_mod]

theorem inSquare_curve (o : Orientation) (m d : Nat) : InSquare (2 ^ m) (curve o m d) := by
  induction m generalizing o with
  | zero => exact ⟨one_pos, one_pos⟩
  | succ m ih =>
    rw [curve_succ, pow_succ']
    exact (ih _).placeInQuadrant _

theorem curve_eq_orientCell (o : Orientation) (m d : Nat) :
    curve o m d = orientCell o (2 ^ m) (curve .ident m d) := by
  induction m generalizing o with
  | zero => cases o <;> rfl
  | succ m ih =>
    rw [curve_succ o, curve_succ .ident, pow_succ',
      orientCell_placeInQuadrant (inSquare_curve ..), ident_composeOrientation,
      ih (composeOrientation o _), ih (localOrientation _),
      orientCell_composeOrientation (inSquare_curve ..)]
    rfl

/-- The recursion under ID, every sub-curve as the image of the curve of ID. -/
theorem curve_ident_succ (m d : Nat) :
    curve .ident (m + 1) d =
      placeInQuadrant (2 ^ m) (quadrantOfGroup (curveGroup m d))
        (orientCell (localOrientation (curveGroup m d)) (2 ^ m) (curve .ident m d)) := by
  rw [curve_succ, ident_composeOrientation, curve_eq_orientCell]
  rfl

section Quadrants

variable {m d : Nat}

/-! The four quadrants of the curve of ID, in the order in which it visits them. -/

theorem curve_ident_of_group_zero (group : curveGroup m d = 0#2) :
    curve .ident (m + 1) d = ((curve .ident m d).2, (curve .ident m d).1) := by
  rw [curve_ident_succ, group]
  simp [placeInQuadrant, quadrantOfGroup, localOrientation, orientCell, bitNat]

theorem curve_ident_of_group_one (group : curveGroup m d = 1#2) :
    curve .ident (m + 1) d = ((curve .ident m d).1, 2 ^ m + (curve .ident m d).2) := by
  rw [curve_ident_succ, group]
  simp [placeInQuadrant, quadrantOfGroup, localOrientation, orientCell, bitNat]

theorem curve_ident_of_group_two (group : curveGroup m d = 2#2) :
    curve .ident (m + 1) d = (2 ^ m + (curve .ident m d).1, 2 ^ m + (curve .ident m d).2) := by
  rw [curve_ident_succ, group]
  simp [placeInQuadrant, quadrantOfGroup, localOrientation, orientCell, bitNat]

theorem curve_ident_of_group_three (group : curveGroup m d = 3#2) :
    curve .ident (m + 1) d =
      (2 ^ m + (2 ^ m - 1 - (curve .ident m d).2), 2 ^ m - 1 - (curve .ident m d).1) := by
  rw [curve_ident_succ, group]
  simp [placeInQuadrant, quadrantOfGroup, localOrientation, orientCell, bitNat]

end Quadrants

section Ends

variable {m d : Nat}

/-- The indices at which a quadrant of the square is entered, and the first of them. -/
theorem dvd_pow_succ_iff : 4 ^ (m + 1) ∣ d ↔ 4 ^ m ∣ d ∧ curveGroup m d = 0#2 := by
  have first : curveGroup m d = 0#2 ↔ 4 ∣ d / 4 ^ m := by
    rw [← BitVec.toNat_inj, toNat_curveGroup, Nat.dvd_iff_mod_eq_zero]
    rfl
  rw [first, pow_succ]
  constructor
  · intro multiple
    exact ⟨dvd_of_mul_right_dvd multiple, Nat.dvd_div_of_mul_dvd multiple⟩
  · rintro ⟨entered, multiple⟩
    exact Nat.mul_dvd_of_dvd_div entered multiple

/-- Past the last cell of a quadrant comes the next group. -/
theorem curveGroup_succ_of_dvd (last : 4 ^ m ∣ d + 1) :
    curveGroup m (d + 1) = curveGroup m d + 1#2 := by
  rw [curveGroup, Nat.succ_div_of_dvd last, BitVec.ofNat_add, curveGroup]

theorem curveGroup_succ_of_not_dvd (inside : ¬ 4 ^ m ∣ d + 1) :
    curveGroup m (d + 1) = curveGroup m d := by
  rw [curveGroup, Nat.succ_div_of_not_dvd inside, curveGroup]

/-- The curve of ID enters at the corner (0, 0). -/
theorem curve_ident_of_dvd (first : 4 ^ m ∣ d) : curve .ident m d = (0, 0) := by
  induction m with
  | zero => rfl
  | succ m ih =>
    obtain ⟨firstBelow, group⟩ := dvd_pow_succ_iff.mp first
    rw [curve_ident_of_group_zero group, ih firstBelow]

/-- The curve of ID leaves at the other end of the lowest row. -/
theorem curve_ident_of_dvd_succ (last : 4 ^ m ∣ d + 1) : curve .ident m d = (2 ^ m - 1, 0) := by
  induction m with
  | zero => rfl
  | succ m ih =>
    obtain ⟨lastBelow, nextGroup⟩ := dvd_pow_succ_iff.mp last
    rw [curveGroup_succ_of_dvd lastBelow] at nextGroup
    have group : curveGroup m d = 3#2 := BitVec.eq_sub_iff_add_eq.mpr nextGroup
    rw [curve_ident_of_group_three group, ih lastBelow, Prod.mk.injEq, pow_succ]
    omega

end Ends

section Locality

variable {m d : Nat}

theorem manhattan_placeInQuadrant (side : Nat) (q : Bool × Bool) (a b : Nat × Nat) :
    manhattan (placeInQuadrant side q a) (placeInQuadrant side q b) = manhattan a b := by
  simp only [manhattan, placeInQuadrant, Nat.add_sub_add_left]

theorem manhattan_orientCell {side : Nat} {a b : Nat × Nat} (insideA : InSquare side a)
    (insideB : InSquare side b) (o : Orientation) :
    manhattan (orientCell o side a) (orientCell o side b) = manhattan a b := by
  obtain ⟨leftA, rightA⟩ := insideA
  obtain ⟨leftB, rightB⟩ := insideB
  cases o <;> simp only [manhattan, orientCell] <;> omega

/-- Cells at Manhattan distance 1 share an edge, and so have Chebyshev distance 1. -/
theorem chebyshev_eq_one {a b : Nat × Nat} (adjacent : manhattan a b = 1) :
    chebyshev a b = 1 := by
  simp only [manhattan, chebyshev] at *
  omega

/-- The last cell of a quadrant shares an edge with the first cell of the next one. -/
theorem manhattan_curve_ident_crossing (last : 4 ^ m ∣ d + 1) (inside : ¬ 4 ^ (m + 1) ∣ d + 1) :
    manhattan (curve .ident (m + 1) d) (curve .ident (m + 1) (d + 1)) = 1 := by
  have leaves := curve_ident_of_dvd_succ last
  have enters := curve_ident_of_dvd last
  have next := curveGroup_succ_of_dvd last
  have positive : 0 < 2 ^ m := Nat.two_pow_pos m
  have notLast : curveGroup m d ≠ 3#2 := by
    intro group
    rw [group] at next
    exact inside (dvd_pow_succ_iff.mpr ⟨last, next⟩)
  have groups : ∀ g : Group, g ≠ 3#2 → g = 0#2 ∨ g = 1#2 ∨ g = 2#2 := by decide
  rcases groups _ notLast with group | group | group <;> rw [group] at next
  · rw [curve_ident_of_group_zero group, curve_ident_of_group_one next, leaves, enters, manhattan]
    omega
  · rw [curve_ident_of_group_one group, curve_ident_of_group_two next, leaves, enters, manhattan]
    omega
  · rw [curve_ident_of_group_two group, curve_ident_of_group_three next, leaves, enters, manhattan]
    omega

/-- Consecutive indices of one square share an edge: inside a quadrant by the curve of that
quadrant, and from one quadrant to the next by their ends. -/
theorem manhattan_curve_ident (inside : ¬ 4 ^ m ∣ d + 1) :
    manhattan (curve .ident m d) (curve .ident m (d + 1)) = 1 := by
  induction m with
  | zero => exact absurd (one_dvd _) inside
  | succ m ih =>
    by_cases last : 4 ^ m ∣ d + 1
    · exact manhattan_curve_ident_crossing last inside
    · rw [curve_ident_succ, curve_ident_succ, curveGroup_succ_of_not_dvd last,
        manhattan_placeInQuadrant, manhattan_orientCell (inSquare_curve ..) (inSquare_curve ..),
        ih last]

end Locality

section Nesting

variable {m d : Nat}

/-- The first quadrant holds the curve of half the side with x and y exchanged. -/
theorem curve_ident_succ_of_lt (first : d < 4 ^ m) :
    curve .ident (m + 1) d = (curve .ident m d).swap := by
  have group : curveGroup m d = 0#2 := by rw [curveGroup, Nat.div_eq_of_lt first]
  exact curve_ident_of_group_zero group

/-- An index of a small square has the same cell in one 2^k times as wide, with x and y exchanged
when k is odd (41_hilbert.md R105, 90_conflicts.md C3). -/
theorem curve_ident_add (fits : d < 4 ^ m) (k : Nat) :
    curve .ident (m + k) d =
      if k % 2 = 0 then curve .ident m d else (curve .ident m d).swap := by
  induction k with
  | zero => rfl
  | succ k ih =>
    have first : d < 4 ^ (m + k) := fits.trans_le (Nat.pow_le_pow_right four_pos le_self_add)
    rw [← Nat.add_assoc, curve_ident_succ_of_lt first, ih]
    rcases Nat.mod_two_eq_zero_or_one k with even | odd
    · rw [if_pos even, if_neg (by omega)]
    · rw [if_neg (by omega), if_pos (by omega), Prod.swap_swap]

end Nesting

end Sys2Proof.Machine

namespace Sys2Proof

open Machine

/-- Settles O44; the bound on d is not needed, since both curves read d modulo 4^m. -/
theorem curveIsTheImageOfIdent : Obligations.CurveIsTheImageOfIdent :=
  fun o m d _ => curve_eq_orientCell o m d

/-- Settles O45. -/
theorem curveEntersAndLeaves : Obligations.CurveEntersAndLeaves := by
  intro m
  have last : 4 ^ m ∣ 4 ^ m - 1 + 1 := by rw [Nat.sub_add_cancel (Nat.pow_pos four_pos)]
  exact ⟨curve_ident_of_dvd (dvd_zero _), curve_ident_of_dvd_succ last⟩

end Sys2Proof
end

section
/-!
The Hilbert decoder (41_hilbert.md R103, R105): the walk stands, after every level, at the corner
from which the rest of the curve goes on, so it ends at the cell of the curve; the properties of the
decoder are those of the curve.
-/

namespace Sys2Proof.Machine

theorem two_pow_eq_four_pow {W : Nat} (valid : validWidth W = true) : 2 ^ W = 4 ^ (W / 2) := by
  obtain ⟨-, H, rfl⟩ := (validWidth_iff W).mp valid
  rw [two_pow_two_mul, Nat.mul_div_cancel_left H two_pos]

/-- The working state of `HilbertDecode_W` after `l` levels. -/
abbrev walkedLevels (W : Nat) (index : BitVec W) (l : Nat) : HilbertWork W :=
  runLevels W (lutRead hilbertLut) index l (hilbertStart W)

/-- The corner that the accumulators hold, as a cell. -/
def cornerOf {W : Nat} (w : HilbertWork W) : Nat × Nat := (w.x.toNat, w.y.toNat)

section Walk

variable {W : Nat} (valid : validWidth W = true)

include valid

/-- The walk and the curve read the same group (41_hilbert.md R98, R100). -/
theorem groupAt_eq_curveGroup (index : BitVec W) {l m : Nat} (remaining : W / 2 = l + (m + 1)) :
    groupAt W index l = curveGroup m index.toNat := by
  obtain ⟨-, H, rfl⟩ := (validWidth_iff W).mp valid
  apply BitVec.eq_of_toNat_eq
  rw [toNat_groupAt, toNat_curveGroup, show 2 * H - 2 - 2 * l = 2 * m by omega, two_pow_two_mul]

/-- After l levels the cell of the index lies as far from the accumulated corner as the curve of the
current orientation says, in the square of the remaining m levels. -/
theorem curve_eq_corner_add_curve (index : BitVec W) {l m : Nat} (remaining : W / 2 = l + m) :
    curve .ident (W / 2) index.toNat =
      cornerOf (walkedLevels W index l) +
        curve (walkedLevels W index l).orientation m index.toNat := by
  induction l generalizing m with
  | zero =>
    obtain rfl : m = W / 2 := by omega
    simp [runLevels, cornerOf]
  | succ l ih =>
    have remaining' : W / 2 = l + (m + 1) := by omega
    have half : W / 2 - 1 - l = m := by omega
    obtain ⟨addedX, addedY⟩ := toNat_runLevels_succ W (lutRead hilbertLut) index
      (show l < W / 2 by omega)
    rw [ih remaining', cornerOf, cornerOf, addedX, addedY, orientation_runLevels_succ, entryAt,
      half, groupAt_eq_curveGroup valid index remaining', lutRead_hilbertLut, curve_succ]
    ext <;> simp only [conventionEntry, placeInQuadrant, Prod.fst_add, Prod.snd_add] <;> ring

theorem cellOf_hilbertDecode (index : BitVec W) :
    cellOf (hilbertDecode W index) = curve .ident (W / 2) index.toNat :=
  (curve_eq_corner_add_curve valid index (Nat.add_zero (W / 2)).symm).symm

/-- The decoder at an index given as a number: bits from W up are not read. -/
theorem cellOf_hilbertDecode_ofNat (d : Nat) :
    cellOf (hilbertDecode W (BitVec.ofNat W d)) = curve .ident (W / 2) d := by
  rw [cellOf_hilbertDecode valid, BitVec.toNat_ofNat, two_pow_eq_four_pow valid, curve_mod]

theorem manhattan_curve_of_lt_two_pow {d : Nat} (inside : d + 1 < 2 ^ W) :
    manhattan (curve .ident (W / 2) d) (curve .ident (W / 2) (d + 1)) = 1 := by
  rw [two_pow_eq_four_pow valid] at inside
  exact manhattan_curve_ident (Nat.not_dvd_of_pos_of_lt d.succ_pos inside)

/-- Bit selection is a bijection between the same sets, so an injective walk is one too. -/
theorem hilbertDecodeBy_bijective {entry : Orientation → Group → LutEntry}
    (distinct : ∀ o, Function.Injective fun g => ((entry o g).dx, (entry o g).dy)) :
    Function.Bijective (hilbertDecodeBy W entry) := by
  have interleave : Function.Bijective (mortonInterleave W) :=
    ⟨(mortonDecode_mortonInterleave valid).injective,
      (mortonInterleave_mortonDecode valid).surjective⟩
  have roundTrip : Function.Injective (mortonInterleave W ∘ hilbertDecodeBy W entry) :=
    interleave.injective.comp (hilbertDecodeBy_injective distinct valid)
  exact (interleave.of_comp_iff' _).mp roundTrip.bijective_of_finite

end Walk

end Sys2Proof.Machine

namespace Sys2Proof

open Machine

/-- Settles O43: after the last level nothing of the curve remains. -/
theorem hilbertWalkFollowsTheCurve : Obligations.HilbertWalkFollowsTheCurve :=
  fun _ index valid => cellOf_hilbertDecode valid index

/-- Settles O47: the pair tells the groups level by level, and there are as many pairs as indices.
-/
theorem distinctQuadrantsDecodeBijectively : Obligations.DistinctQuadrantsDecodeBijectively :=
  fun _ distinct _ valid => hilbertDecodeBy_bijective valid distinct

/-- Settles O46: the hardwired table has distinct quadrants (O47). -/
theorem hilbertIsBijective : Obligations.HilbertIsBijective :=
  fun _ valid => hilbertDecodeBy_bijective valid lutRead_hilbertLut_quadrant_injective

/-- Settles O48. -/
theorem hilbertConsecutiveCellsShareAnEdge : Obligations.HilbertConsecutiveCellsShareAnEdge := by
  intro W i valid inside
  rw [cellOf_hilbertDecode_ofNat valid, cellOf_hilbertDecode_ofNat valid]
  have adjacent := manhattan_curve_of_lt_two_pow valid inside
  exact ⟨adjacent, chebyshev_eq_one adjacent⟩

/-- Settles O49: the ends of the curve (O45). -/
theorem hilbertCorners : Obligations.HilbertCorners := by
  intro W valid
  rw [cellOf_hilbertDecode_ofNat valid, cellOf_hilbertDecode_ofNat valid,
    two_pow_eq_four_pow valid]
  exact curveEntersAndLeaves (W / 2)

/-- Settles O50: k levels are k nested first quadrants. -/
theorem hilbertAcrossWidths : Obligations.HilbertAcrossWidths := by
  intro W k index valid valid' fits small
  have sameIndex : (index.setWidth (W - 2 * k)).toNat = index.toNat := by
    rw [BitVec.toNat_setWidth, Nat.mod_eq_of_lt fits]
  have smallCell : cellOf small = curve .ident ((W - 2 * k) / 2) index.toNat := by
    rw [cellOf_hilbertDecode valid', sameIndex]
  have levels : W / 2 = (W - 2 * k) / 2 + k := by
    obtain ⟨two, -⟩ := (validWidth_iff _).mp valid'
    omega
  have exchanged : cellOf (exchange small) = (cellOf small).swap := rfl
  rw [two_pow_eq_four_pow valid'] at fits
  rw [cellOf_hilbertDecode valid, levels, curve_ident_add fits, exchanged, smallCell]

end Sys2Proof
end

section
/-!
The unit's Hilbert operations: the cell on the outputs is the cell of the curve, whatever index bits
are ignored (30_encoding.md R59), and operations of one kind agree on an index that fits both widths
(40_morton.md R80, 41_hilbert.md R105).
-/

namespace Sys2Proof

theorem widthOfOp_le (op : OpCode) : widthOfOp op ≤ 64 := by
  revert op
  decide

theorem eight_dvd_widthOfOp (op : OpCode) : 8 ∣ widthOfOp op :=
  pow_dvd_pow 2 (Nat.le_add_left 3 _)

namespace Machine

theorem cellOf_placeResult {H : Nat} (fits : H ≤ 32) (c : Coords H) :
    cellOf (placeResult c) = cellOf c := by
  obtain ⟨x, y⟩ := toNat_placeResult fits c
  rw [cellOf, x, y, cellOf]

theorem cellOf_injective {H : Nat} : Function.Injective (cellOf (H := H)) := by
  intro c d same
  obtain ⟨x, y⟩ := Prod.mk.inj same
  cases c
  cases d
  exact (Coords.mk.injEq ..).mpr ⟨BitVec.eq_of_toNat_eq x, BitVec.eq_of_toNat_eq y⟩

theorem toNat_operand (W : Nat) (index : IndexPort) :
    (operand W index).toNat = index.toNat % 2 ^ W := BitVec.toNat_setWidth ..

theorem cellOf_hilbertDecode_operand {W : Nat} (valid : validWidth W = true)
    (index : IndexPort) :
    cellOf (hilbertDecode W (operand W index)) = curve .ident (W / 2) index.toNat := by
  rw [cellOf_hilbertDecode valid, toNat_operand, two_pow_eq_four_pow valid, curve_mod]

/-- An index that fits the narrower width has one cell at both; a Hilbert cell is exchanged at every
other level, and the widths differ by an even number of levels. -/
theorem cellOf_decodeBy_of_fits {V W : Nat} (kind : CurveKind) (validV : validWidth V = true)
    (validW : validWidth W = true) (wider : V ≤ W) (apart : 4 ∣ W - V) {index : IndexPort}
    (fits : index.toNat < 2 ^ V) :
    cellOf (decodeBy kind W (operand W index)) = cellOf (decodeBy kind V (operand V index)) := by
  cases kind with
  | morton =>
    have extended : (operand V index).setWidth W = operand W index := by
      apply BitVec.eq_of_toNat_eq
      rw [BitVec.toNat_setWidth, toNat_operand, toNat_operand, Nat.mod_eq_of_lt fits]
    have sameCell := cellOf_mortonDecode_setWidth validV validW wider (operand V index)
    rwa [extended] at sameCell
  | hilbert =>
    obtain ⟨k, difference⟩ := apart
    have levels : W / 2 = V / 2 + 2 * k := by omega
    rw [two_pow_eq_four_pow validV] at fits
    rw [decodeBy, decodeBy, cellOf_hilbertDecode_operand validV,
      cellOf_hilbertDecode_operand validW, levels, curve_ident_add fits,
      if_pos (Nat.mul_mod_right 2 k)]

section Unit

variable {op a b : OpCode} {index : IndexPort}

theorem cellOf_sfcDecodeUnit (op : OpCode) (index : IndexPort) :
    cellOf (sfcDecodeUnit op index) =
      cellOf (decodeBy (kindOfOp op) (widthOfOp op) (operand (widthOfOp op) index)) := by
  have atMost := widthOfOp_le op
  rw [sfcDecodeUnit_eq_placeResult, cellOf_placeResult (by omega)]

theorem cellOf_sfcDecodeUnit_of_hilbert (hilbert : kindOfOp op = .hilbert) :
    cellOf (sfcDecodeUnit op index) = curve .ident (widthOfOp op / 2) index.toNat := by
  rw [cellOf_sfcDecodeUnit, hilbert, decodeBy,
    cellOf_hilbertDecode_operand (validWidth_widthOfOp op)]

theorem sfcDecodeUnit_eq_of_fits (sameKind : kindOfOp a = kindOfOp b)
    (fitsA : index.toNat < 2 ^ widthOfOp a) (fitsB : index.toNat < 2 ^ widthOfOp b) :
    sfcDecodeUnit a index = sfcDecodeUnit b index := by
  wlog wider : widthOfOp b ≤ widthOfOp a generalizing a b
  · exact (this sameKind.symm fitsB fitsA (Nat.le_of_not_le wider)).symm
  have apart : 4 ∣ widthOfOp a - widthOfOp b :=
    (by decide : 4 ∣ 8).trans (Nat.dvd_sub (eight_dvd_widthOfOp a) (eight_dvd_widthOfOp b))
  apply cellOf_injective
  rw [cellOf_sfcDecodeUnit, cellOf_sfcDecodeUnit, sameKind,
    cellOf_decodeBy_of_fits _ (validWidth_widthOfOp b) (validWidth_widthOfOp a) wider apart fitsB]

end Unit

end Machine

open Machine

/-- Settles O51: both operations receive the unit's function, which is the same pair at both codes.
-/
theorem instanceWidthsAgree : Obligations.InstanceWidthsAgree := by
  intro a b index s sameKind fitsA fitsB
  have same := sfcDecodeUnit_eq_of_fits sameKind fitsA fitsB
  refine ⟨_, _, exec_eq _ s, exec_eq _ s, ?outputs, ?results⟩
  case outputs =>
    rw [outputsOf_of_exec_decodeOp (exec_eq _ s), outputsOf_of_exec_decodeOp (exec_eq _ s), same]
  case results =>
    rw [resultsOf_takeResult, resultsOf_takeResult, resultOf_decodeOp, resultOf_decodeOp, same]

/-- Settles O52: W is at most 64, so the next index does not wrap at the port. -/
theorem consecutiveHilbertRequestsAreAdjacent :
    Obligations.ConsecutiveHilbertRequestsAreAdjacent := by
  intro op index s s' hilbert inside
  have next : (index + 1).toNat = index.toNat + 1 :=
    BitVec.toNat_add_of_lt
      (inside.trans_le (Nat.pow_le_pow_right two_pos (widthOfOp_le op)))
  refine ⟨_, _, exec_eq _ s, exec_eq _ s', ?_⟩
  rw [outputsOf_of_exec_decodeOp (exec_eq _ s), outputsOf_of_exec_decodeOp (exec_eq _ s'),
    cellOf_sfcDecodeUnit_of_hilbert hilbert, cellOf_sfcDecodeUnit_of_hilbert hilbert, next]
  exact manhattan_curve_of_lt_two_pow (validWidth_widthOfOp op) inside

end Sys2Proof
end

section
/-!
The four Hilbert operations (41_hilbert.md R106 to R109): one argument for every operation of the
Hilbert kind, then each with its examples.
-/

namespace Sys2Proof

open Machine

/-- The group of a level is two bits of the index port, all of them below W (41_hilbert.md R100). -/
theorem groupAt_operand {W l : Nat} (index : IndexPort) (level : l < W / 2) :
    groupAt W (operand W index) l = index.extractLsb' (W - 2 - 2 * l) 2 := by
  apply BitVec.eq_of_getLsbD_eq
  intro j below
  have inside : W - 2 - 2 * l + j < W := by omega
  rw [getLsbD_groupAt, getLsbD_operand, BitVec.getLsbD_extractLsb', decide_eq_true inside,
    Bool.true_and]

/-- Every operation of the Hilbert kind answers in every state: its pair is the decoded operand,
whose cell is that of the curve. -/
theorem exec_hilbertAnswer {i : Instr} (hilbert : i.kind = .hilbert) (s : Machine.State) :
    ∃ t, exec i s = .next t ∧ HilbertAnswer i.width i t := by
  obtain ⟨K, positive, pow⟩ := width_eq_two_pow i
  have valid := validWidth_of_eq_two_pow pow positive
  have fits := half_width_le i
  have result : resultOf i = placeResult (hilbertDecode i.width (operand i.width i.index)) := by
    rw [resultOf_eq_placeResult, hilbert, decodeBy]
  refine ⟨_, exec_eq i s, ?_⟩
  rw [HilbertAnswer, State.xOut, State.yOut, outputsOf_of_exec (exec_eq i s), result]
  refine ⟨rfl, rfl, fun l level => groupAt_operand i.index level, fun l level => ?scaled, ?cell,
    fun j above => getLsbD_placeResult_of_le _ above, _,
    hilbertDecoder_eq_ok_iff.mpr ⟨valid, rfl⟩, rfl, rfl⟩
  case scaled => rw [toNat_scaledBit _ l true level, bitNat, if_pos rfl, Nat.one_mul]
  case cell =>
    calc cellOf (placeResult (hilbertDecode i.width (operand i.width i.index)))
      _ = cellOf (hilbertDecode i.width (operand i.width i.index)) := cellOf_placeResult fits _
      _ = curve .ident (i.width / 2) (operand i.width i.index).toNat :=
        cellOf_hilbertDecode valid _
      _ = curve .ident (i.width / 2) (i.index.toNat % 2 ^ i.width) := by rw [toNat_operand]

/-- Settles O13: the listed pairs and levels are evaluated. -/
theorem hilbertDecode8Answers : Obligations.HilbertDecode8Answers := by
  refine ⟨fun _ s => exec_hilbertAnswer rfl s, fun _ => rfl, fun p listed => ?corner,
    rfl, rfl, rfl, rfl, rfl⟩
  case corner => fin_cases listed <;> rfl

/-- Settles O14, as O13 at 16 bits. -/
theorem hilbertDecode16Answers : Obligations.HilbertDecode16Answers := by
  refine ⟨fun _ s => exec_hilbertAnswer rfl s, fun _ => rfl, fun p listed => ?corner⟩
  case corner => fin_cases listed <;> rfl

/-- Settles O15, as O13 at 32 bits. -/
theorem hilbertDecode32Answers : Obligations.HilbertDecode32Answers := by
  refine ⟨fun _ s => exec_hilbertAnswer rfl s, fun _ => rfl, fun p listed => ?corner⟩
  case corner => fin_cases listed <;> rfl

/-- Settles O16, as O13 at 64 bits. -/
theorem hilbertDecode64Answers : Obligations.HilbertDecode64Answers := by
  refine ⟨fun _ s => exec_hilbertAnswer rfl s, fun _ => rfl, fun p listed => ?corner⟩
  case corner => fin_cases listed <;> rfl

end Sys2Proof
end

section
/-!
Totality of the unit (60_exceptions.md R125): each transition is a next state, so by induction every run
and every list of requests is answered.
-/

namespace Sys2Proof

theorem exists_run_eq {M : Host.Core} (answers : ∀ s, ∃ t, M.step s = .next t) (n : Nat)
    (s : M.State) : ∃ t, M.run n s = .next t := by
  induction n generalizing s with
  | zero => exact ⟨s, rfl⟩
  | succ n ih =>
    obtain ⟨t, stepped⟩ := answers s
    rw [Host.Core.run, stepped]
    exact ih t

namespace Machine

theorem exists_serve_eq (w : Request) (s : State) : ∃ t, serve w s = .next t := ⟨_, serve_eq w s⟩

theorem exists_serveAll_eq (ws : List Request) (s : State) : ∃ t, serveAll ws s = .next t := by
  induction ws generalizing s with
  | nil => exact ⟨s, rfl⟩
  | cons w ws ih =>
    rw [serveAll_cons]
    exact ih _

end Machine

open Machine

/-- Settles O18: an operation and a step each have one outcome, a next state. -/
theorem everyRequestIsAnswered : Obligations.EveryRequestIsAnswered :=
  ⟨fun i s => ⟨_, exec_eq i s⟩,
    exists_run_eq (M := core) fun s => ⟨_, step_eq s⟩,
    nofun,
    exists_serveAll_eq⟩

end Sys2Proof
end

section
/-!
A row of instances (60_exceptions.md R133, log 12): serving at one replaces that entry by what the
unit alone would do, and no other entry is read or written.
-/

namespace Sys2Proof

namespace Machine

section Row

variable {n : Nat} {j k : Fin n} {v w : Request} {t : State} {units units' : Vector State n}

theorem serveAt_eq_of_serve_eq (served : serve w units[k] = .next t) :
    serveAt k w units = .next (units.set k t) := by
  rw [Fin.getElem_fin] at served
  rw [serveAt, served]

theorem serveAt_eq_next_iff :
    serveAt k w units = .next units' ↔
      ∃ t, serve w units[k] = .next t ∧ units.set k t = units' := by
  obtain ⟨t, served⟩ := exists_serve_eq w units[k]
  simp only [serveAt_eq_of_serve_eq served, served, Host.Outcome.next.injEq, exists_eq_left']

/-- The local effect: the unit that served is as it would be alone. -/
theorem serve_eq_of_serveAt_eq (ran : serveAt k w units = .next units') :
    serve w units[k] = .next units'[k] := by
  obtain ⟨t, served, rfl⟩ := serveAt_eq_next_iff.mp ran
  rw [served, Fin.getElem_fin, Vector.getElem_set_self]

/-- The frame: all other entries are unchanged. -/
theorem getElem_of_serveAt_eq (ran : serveAt k w units = .next units') (other : j ≠ k) :
    units'[j] = units[j] := by
  obtain ⟨t, -, rfl⟩ := serveAt_eq_next_iff.mp ran
  exact Vector.getElem_set_ne k.isLt j.isLt (Fin.val_ne_of_ne other.symm)

theorem serveAt_after_other (first : serveAt j v units = .next units') (other : k ≠ j)
    (served : serve w units[k] = .next t) : serveAt k w units' = .next (units'.set k t) := by
  apply serveAt_eq_of_serve_eq
  rw [getElem_of_serveAt_eq first other, served]

end Row

/-- A served unit is settled: serving is a step (O22). -/
theorem unitInv_of_serve {w : Request} {s t : State} (served : serve w s = .next t) : UnitInv t :=
  everyStepSettlesTheOutputs (presentRequest s w) t served

end Machine

open Machine

/-- Settles O26: each request replaces its own entry only, and writes to different entries commute. -/
theorem instancesAreIndependent : Obligations.InstancesAreIndependent := by
  intro n j k v w units
  obtain ⟨t, servedK⟩ := exists_serve_eq w units[k]
  obtain ⟨u, servedJ⟩ := exists_serve_eq v units[j]
  have atK := serveAt_eq_of_serve_eq servedK
  have atJ := serveAt_eq_of_serve_eq servedJ
  refine ⟨⟨t, servedK, atK⟩, fun units' ran other => getElem_of_serveAt_eq ran other,
    fun other => ⟨_, _, _, atJ, serveAt_after_other atJ other.symm servedK, atK, ?commute⟩⟩
  case commute =>
    rw [serveAt_after_other atK other servedJ, Vector.set_comm t u (Fin.val_ne_of_ne other.symm)]

/-- Settles O27: the unit that served is settled by its step, the others are as they were. -/
theorem allInstancesStaySettled : Obligations.AllInstancesStaySettled := by
  intro n k w units units' settledBefore ran j
  by_cases same : j = k
  · rw [same]
    exact unitInv_of_serve (serve_eq_of_serveAt_eq ran)
  · rw [getElem_of_serveAt_eq ran same]
    exact settledBefore j

end Sys2Proof
end

section
/-!
The realisation with a writable table (70_reset_and_hazards.md R142, log 7). Its outputs are the unit's
wherever no unloaded table is read, and a step is decided by whether there are outputs: it takes them as
the unit does, or is refused.
-/

namespace Sys2Proof

namespace Machine

variable {u u' : WritableUnit}

theorem writableOutputs_eq_none_iff :
    writableOutputs u = none ↔ kindOfOp u.ports.op = .hilbert ∧ u.lut = none := by
  rw [writableOutputs]
  cases kindOfOp u.ports.op <;> cases u.lut <;> simp

/-- A Morton request reads no table (40_morton.md R75), loaded or not. -/
theorem writableOutputs_of_morton (morton : kindOfOp u.ports.op = .morton) :
    writableOutputs u = some (outputsOf u.ports) := by
  rw [writableOutputs, morton, outputsOf]

/-- What the load writes is the hardwired table (41_hilbert.md R99). -/
theorem writableOutputs_writableLoad (u : WritableUnit) :
    writableOutputs (writableLoad u) = some (outputsOf u.ports) := by
  cases kind : kindOfOp u.ports.op with
  | morton => exact writableOutputs_of_morton kind
  | hilbert => simp only [writableOutputs, writableLoad, kind, outputsOf, sfcDecodeUnit]

theorem writableStep_of_outputs_none (undefinedOutputs : writableOutputs u = none) :
    writableStep u = .refused .lutNotLoaded := by
  rw [writableStep, undefinedOutputs]

theorem writableStep_of_outputs_some {c : Coords 32} (outputs : writableOutputs u = some c) :
    writableStep u = .next { u with ports := takeResult u.ports c } := by
  rw [writableStep, outputs]

/-- Where the outputs are the unit's, so is the answer. -/
theorem writableStep_eq_step_of_outputs (outputs : writableOutputs u = some (outputsOf u.ports)) :
    ∃ t, step u.ports = .next t ∧ writableStep u = .next { u with ports := t } :=
  ⟨_, step_eq u.ports, writableStep_of_outputs_some outputs⟩

/-- The frame of a step: it changes the ports only. -/
theorem lut_of_writableStep_eq_next (ran : writableStep u = .next u') : u'.lut = u.lut := by
  cases outputs : writableOutputs u with
  | none => simp [writableStep_of_outputs_none outputs] at ran
  | some c =>
    rw [writableStep_of_outputs_some outputs, Host.Outcome.next.injEq] at ran
    rw [← ran]

end Machine

open Machine

/-- Settles O53: outputs are missing exactly for a Hilbert request before the load, and are the unit's
for a Morton request and after the load. -/
theorem writableTableNeedsItsLoad : Obligations.WritableTableNeedsItsLoad := by
  have noOutputs (u : WritableUnit) (unloaded : u.lut = none)
      (hilbert : kindOfOp u.ports.op = .hilbert) : writableOutputs u = none :=
    writableOutputs_eq_none_iff.mpr ⟨hilbert, unloaded⟩
  exact ⟨fun u unloaded hilbert => writableStep_of_outputs_none (noOutputs u unloaded hilbert),
    noOutputs,
    writableOutputs_writableLoad,
    fun _ morton => writableStep_eq_step_of_outputs (writableOutputs_of_morton morton),
    fun u => writableStep_eq_step_of_outputs (writableOutputs_writableLoad u),
    fun _ _ ran => lut_of_writableStep_eq_next ran⟩

end Sys2Proof
end

section
/-! The programs of 95_test_vectors.md as request words: each is the encoding (30_encoding.md R56, R62) of
the operation written beside it, so the round trip (O1) decodes it. -/

namespace Sys2Proof

theorem decodeTableWord_of_encode_eq {i : Instr} {nbits w : Nat} (wide : 67 ≤ nbits)
    (word : (encode i).toNat = w) : decodeTableWord nbits w = some i :=
  word ▸ (decodeOfEncode i (wellFormed_eq_true i)).2 nbits wide

/-- Settles O6: what is left to compute is the encoding of each operation. -/
theorem wordsOfProgramsDecode : Obligations.WordsOfProgramsDecode := by
  have decodes {i : Instr} {w : Nat} (word : (encode i).toNat = w) : decodeTableWord 72 w = some i :=
    decodeTableWord_of_encode_eq (by decide) word
  exact ⟨decodes rfl, decodes rfl, decodes rfl, decodes rfl,
    decodes rfl, decodes rfl, decodes rfl, decodes rfl⟩

end Sys2Proof
end
